-- ==== Sys2Proof/Word.lean ====
section
/-! DEFINITION. The widths of the machine: bytes, instruction words and the registers of 10_state.md rule R20. -/

namespace Sys2Proof

/-- One cell of the tape, and one unit of either stream (R27, R50). -/
abbrev Byte := BitVec 8

/-- One instruction word, W = 32 bits (R9, R72). -/
abbrev Word := BitVec 32

/-- The operand field of an instruction word, OPW = 29 bits (R9, R72). -/
abbrev Operand := BitVec 29

/-- The program counter register, PCW = 30 bits; PROG_LEN and FAULT_PC have the same width (R9, R20). -/
abbrev Pc := BitVec 30

/-- The data pointer register, DPW = 15 bits; FAULT_DP has the same width (R9, R20). -/
abbrev Dp := BitVec 15

end Sys2Proof
end

