-- ==== Sys2Proof/Config.lean ====
section
/-! DEFINITION. The values the spec fixes for this hardware (R8) and the parameters it leaves open (R9, R35). -/

namespace Sys2Proof

/-- CELLS: the number of cells of the tape (R8; 90_conflicts.md C4). -/
abbrev cells : Nat := 30000

/-- The largest IMEM_DEPTH an implementation may have, 2^29 (R9, D4). -/
abbrev maxImemDepth : Nat := 2 ^ 29

/-- EOF_POLICY: what ReadByte does at end-of-input (R171). Code 3 is reserved and never held (I5). -/
inductive EofPolicy where
  | fault
  | storeZero
  | unchanged
  deriving DecidableEq, Repr

/-- The parameters of one implementation, fixed during a run (R9, R35). The model takes them as an argument: they are
a field of State that no step and no host action changes. [DESIGN CHOICE, log entry 1: safe, statements range over
every value] -/
structure Config where
  eofPolicy : EofPolicy
  hasCancel : Bool
  imemDepth : Fin (maxImemDepth + 1)
  deriving DecidableEq, Repr

/-- The defaults of R9. IMEM_DEPTH has no default in the spec: the largest is taken.
[DESIGN CHOICE, log entry 1] -/
def Config.reference : Config :=
  { eofPolicy := .fault, hasCancel := false, imemDepth := ⟨2 ^ 29, by decide⟩ }

end Sys2Proof
end

