-- ==== Sys2Proof/Syntax.lean ====
section
/-! DEFINITION. The instructions (30_encoding.md R73, R75) and the operator bytes of source text (R70). -/

namespace Sys2Proof

/-- The instructions of spec/opcode_table.json, in the order of their op field. Each carries the operand field of its
word, as `decode` gives it (R75): a count, a target, or for ReadByte and WriteByte a field that must be zero (R74). -/
inductive Instr where
  | moveLeft (n : Operand)
  | moveRight (n : Operand)
  | increment (n : Operand)
  | decrement (n : Operand)
  | readByte (x : Operand)
  | writeByte (x : Operand)
  | jumpIfZero (t : Operand)
  | jumpIfNonZero (t : Operand)
  deriving DecidableEq, Repr

/-- Why a sequence of bytes is no instruction: fewer than four bytes are left (R77: exactly one word per instruction).
Raised by `decodeBytes`; safe. -/
inductive DecodeError where
  | truncatedWord
  deriving DecidableEq, Repr

/-- The eight operators of source text, in the order of R73. -/
inductive Operator where
  | less
  | greater
  | plus
  | minus
  | comma
  | dot
  | openBracket
  | closeBracket
  deriving DecidableEq, Repr

/-- One term of the loader's output before encoding (R118): the operator it came from and its count or target, not yet
cut to the operand field's width (0 for `,` and `.`). -/
structure LoadTerm where
  op : Operator
  arg : Nat
  deriving DecidableEq, Repr

/-- A maximal run of one operator, or a single `,` `.` `[` `]` (R103): the source offset of its first element, its
operator and its length. -/
structure Group where
  off : Nat
  op : Operator
  count : Nat
  deriving DecidableEq, Repr

/-- The loader's failures with the source offset each one reports (R206, D14). -/
inductive LoadError where
  | unmatchedCloseBracket (pos : Nat)
  | unclosedLoop (pos : Nat)
  | programTooLong (pos : Nat)
  | operandOverflow (pos : Nat)
  deriving DecidableEq, Repr

/-- The loader's output (R100): the words IMEM[0..N-1], with N their number. -/
structure Image where
  words : List Word
  deriving DecidableEq, Repr

end Sys2Proof
end

