-- ==== Sys2Proof/WellFormed.lean ====
section
/-! DEFINITION. The named checks of WF (40_loader.md R115, with 30_encoding.md R76) that look at one instruction; the
checks of a whole image are assembled from them in Machine/Image.lean. -/

namespace Sys2Proof

/-- wf_count: a word with op in 0..3 has operand >= 1 (R115, R76 item 1). -/
def Instr.wfCount : Instr → Bool
  | .moveLeft n => 1 ≤ n.toNat
  | .moveRight n => 1 ≤ n.toNat
  | .increment n => 1 ≤ n.toNat
  | .decrement n => 1 ≤ n.toNat
  | .readByte _ => true
  | .writeByte _ => true
  | .jumpIfZero _ => true
  | .jumpIfNonZero _ => true

/-- wf_zero: a word with op in 4..5 has operand 0 (R115, R76 item 2). -/
def Instr.wfZero : Instr → Bool
  | .moveLeft _ => true
  | .moveRight _ => true
  | .increment _ => true
  | .decrement _ => true
  | .readByte x => x.toNat = 0
  | .writeByte x => x.toNat = 0
  | .jumpIfZero _ => true
  | .jumpIfNonZero _ => true

/-- What can be checked of an instruction alone: it is one the loader can produce somewhere (R112, R74). -/
def Instr.wf (i : Instr) : Bool := i.wfCount && i.wfZero

/-- The target of a JumpIfZero. -/
def Instr.zeroTarget? : Instr → Option Nat
  | .moveLeft _ => none
  | .moveRight _ => none
  | .increment _ => none
  | .decrement _ => none
  | .readByte _ => none
  | .writeByte _ => none
  | .jumpIfZero t => some t.toNat
  | .jumpIfNonZero _ => none

/-- The target of a JumpIfNonZero. -/
def Instr.nonZeroTarget? : Instr → Option Nat
  | .moveLeft _ => none
  | .moveRight _ => none
  | .increment _ => none
  | .decrement _ => none
  | .readByte _ => none
  | .writeByte _ => none
  | .jumpIfZero _ => none
  | .jumpIfNonZero t => some t.toNat

/-- wf_pair for the instruction `i` at index `at_` of a program of `n` instructions (R113, R76 items 3 and 4): the two
jumps of a pair name each other's index. -/
def Instr.wfPair (fetch : Nat → Instr) (n at_ : Nat) (i : Instr) : Bool :=
  (match i.zeroTarget? with
    | some t => at_ < t && t < n && (fetch t).nonZeroTarget? == some at_
    | none => true) &&
  (match i.nonZeroTarget? with
    | some t => t < at_ && (fetch t).zeroTarget? == some at_
    | none => true)

end Sys2Proof
end

