-- ==== Sys2Proof/Decode.lean ====
section
/-! DEFINITION. The decoder and the encoder of instruction words (30_encoding.md R72 to R75), their byte form (R79), and
the operator bytes of source text (R70). -/

namespace Sys2Proof

/-- word[31:29] (R72). -/
def opField (w : Word) : BitVec 3 := w.extractLsb' 29 3

/-- word[28:0] (R72). -/
def operandField (w : Word) : Operand := w.extractLsb' 0 29

/-- `decode(word)`, total on every 32-bit word (R75). All eight values of op are in use, and there is no default arm
(R73, R133). Whether the term is legal is the separate check WF. -/
def decode (w : Word) : Instr :=
  match (opField w).getLsbD 2, (opField w).getLsbD 1, (opField w).getLsbD 0 with
  | false, false, false => .moveLeft (operandField w)
  | false, false, true => .moveRight (operandField w)
  | false, true, false => .increment (operandField w)
  | false, true, true => .decrement (operandField w)
  | true, false, false => .readByte (operandField w)
  | true, false, true => .writeByte (operandField w)
  | true, true, false => .jumpIfZero (operandField w)
  | true, true, true => .jumpIfNonZero (operandField w)

/-- The word whose byte 0 is `b0` and byte 3 is `b3` (R53, R79: least significant byte first). -/
def wordOfBytes (b0 b1 b2 b3 : Byte) : Word := b3 ++ b2 ++ b1 ++ b0

/-- The four bytes of a word, least significant first (R53, R79). -/
def wordBytes (w : Word) : List Byte :=
  [w.extractLsb' 0 8, w.extractLsb' 8 8, w.extractLsb' 16 8, w.extractLsb' 24 8]

/-- Decodes the instruction at the front of a byte sequence, with the bytes after it. A decoder takes exactly one word
per instruction (R77). -/
def decodeBytes : List Byte → Except DecodeError (Instr × List Byte)
  | b0 :: b1 :: b2 :: b3 :: rest => .ok (decode (wordOfBytes b0 b1 b2 b3), rest)
  | [_, _, _] => .error .truncatedWord
  | [_, _] => .error .truncatedWord
  | [_] => .error .truncatedWord
  | [] => .error .truncatedWord

/-- The op field of an instruction (R73). -/
def Instr.opBits : Instr → BitVec 3
  | .moveLeft _ => 0b000#3
  | .moveRight _ => 0b001#3
  | .increment _ => 0b010#3
  | .decrement _ => 0b011#3
  | .readByte _ => 0b100#3
  | .writeByte _ => 0b101#3
  | .jumpIfZero _ => 0b110#3
  | .jumpIfNonZero _ => 0b111#3

/-- The operand field of an instruction (R74). -/
def Instr.operand : Instr → Operand
  | .moveLeft n => n
  | .moveRight n => n
  | .increment n => n
  | .decrement n => n
  | .readByte x => x
  | .writeByte x => x
  | .jumpIfZero t => t
  | .jumpIfNonZero t => t

/-- The word of an instruction: `op ++ operand` (R72, R73). -/
def encode (i : Instr) : Word := i.opBits ++ i.operand

/-- The bytes of an instruction, as an image is moved (R79). -/
def encodeBytes (i : Instr) : List Byte := wordBytes (encode i)

/-- An image as bytes: 4·N of them, word `i` at byte offsets 4i..4i+3 (R79). -/
def imageBytes (ws : List Word) : List Byte := ws.flatMap wordBytes

/-- The words of an image moved as bytes (R79). -/
def imageOfBytes : List Byte → Except DecodeError (List Word)
  | b0 :: b1 :: b2 :: b3 :: rest => (imageOfBytes rest).map (wordOfBytes b0 b1 b2 b3 :: ·)
  | [_, _, _] => .error .truncatedWord
  | [_, _] => .error .truncatedWord
  | [_] => .error .truncatedWord
  | [] => .ok []

/-- The low `nbits` bits of `w` as one instruction word. -/
def tableWord (nbits w : Nat) : Word := BitVec.ofNat 32 (w % 2 ^ nbits)

/-- The instruction the decoder reads from a word numbered as spec/opcode_table.json numbers it: the word is laid out
as the bytes an image is moved in (R79) and decoded from them. -/
def decodeTableWord (nbits w : Nat) : Option Instr :=
  match decodeBytes (wordBytes (tableWord nbits w)) with
  | .ok (i, _) => some i
  | .error _ => none

/-- The byte value of an operator (R70; 93_implementation_defined.md G1: US-ASCII codes). [PRESUMED, log entry 14: the
spec marks the values as general knowledge] -/
def Operator.byte : Operator → Byte
  | .less => 0x3C#8
  | .greater => 0x3E#8
  | .plus => 0x2B#8
  | .minus => 0x2D#8
  | .comma => 0x2C#8
  | .dot => 0x2E#8
  | .openBracket => 0x5B#8
  | .closeBracket => 0x5D#8

/-- The operator a source byte stands for; none for the 248 comment bytes (R70, R71). -/
def operatorOf? (b : Byte) : Option Operator :=
  if b = 0x3C#8 then some .less
  else if b = 0x3E#8 then some .greater
  else if b = 0x2B#8 then some .plus
  else if b = 0x2D#8 then some .minus
  else if b = 0x2C#8 then some .comma
  else if b = 0x2E#8 then some .dot
  else if b = 0x5B#8 then some .openBracket
  else if b = 0x5D#8 then some .closeBracket
  else none

/-- The instruction a loader term stands for (R70, R118), its argument in the operand field. -/
def LoadTerm.instr (x : LoadTerm) : Instr :=
  match x.op with
  | .less => .moveLeft (BitVec.ofNat 29 x.arg)
  | .greater => .moveRight (BitVec.ofNat 29 x.arg)
  | .plus => .increment (BitVec.ofNat 29 x.arg)
  | .minus => .decrement (BitVec.ofNat 29 x.arg)
  | .comma => .readByte (BitVec.ofNat 29 x.arg)
  | .dot => .writeByte (BitVec.ofNat 29 x.arg)
  | .openBracket => .jumpIfZero (BitVec.ofNat 29 x.arg)
  | .closeBracket => .jumpIfNonZero (BitVec.ofNat 29 x.arg)

/-- The canonical operator form of one instruction (R78). -/
def Instr.canonical : Instr → List Byte
  | .moveLeft n => List.replicate n.toNat Operator.less.byte
  | .moveRight n => List.replicate n.toNat Operator.greater.byte
  | .increment n => List.replicate n.toNat Operator.plus.byte
  | .decrement n => List.replicate n.toNat Operator.minus.byte
  | .readByte _ => [Operator.comma.byte]
  | .writeByte _ => [Operator.dot.byte]
  | .jumpIfZero _ => [Operator.openBracket.byte]
  | .jumpIfNonZero _ => [Operator.closeBracket.byte]

/-- The canonical operator form of a listing (R78). -/
def canonicalForm (is : List Instr) : List Byte := is.flatMap Instr.canonical

/-- An instruction in the listing syntax (R12, R78). -/
def Instr.listing : Instr → String
  | .moveLeft n => "MoveLeft(" ++ toString n.toNat ++ ")"
  | .moveRight n => "MoveRight(" ++ toString n.toNat ++ ")"
  | .increment n => "Increment(" ++ toString n.toNat ++ ")"
  | .decrement n => "Decrement(" ++ toString n.toNat ++ ")"
  | .readByte _ => "ReadByte"
  | .writeByte _ => "WriteByte"
  | .jumpIfZero t => "JumpIfZero(" ++ toString t.toNat ++ ")"
  | .jumpIfNonZero t => "JumpIfNonZero(" ++ toString t.toNat ++ ")"

/-- A program in the listing syntax (R78). -/
def listing (is : List Instr) : String := ", ".intercalate (is.map Instr.listing)

end Sys2Proof
end

