-- ==== Sys2Proof/Machine/State.lean ====
section
/-! DEFINITION. The state of the machine (10_state.md R20, R33, R34, R38), its reset value (R36), and the reasons a step
can stop. -/

namespace Sys2Proof.Machine

/-- RUN_STATE (R30). The codes 5..7 are never held, so they have no constructor (I5, log entry 19). -/
inductive RunState where
  | reset
  | run
  | waitIn
  | halted
  | faulted
  deriving DecidableEq, Repr

/-- FAULT_CAUSE (R201). The codes 4..255 are never raised, so they have no constructor (I5, log entry 19). -/
inductive FaultCause where
  | none
  | cellRangeError
  | inputExhausted
  | cancelled
  deriving DecidableEq, Repr

/-- Why a step stops the machine. The block's own faults (R201) are not here: fault entry (R204) is a next state. -/
inductive Fault where
  /-- Raised by `step` while reset is held: the block has no step (R131, R230). Safe. -/
  | noStepInReset
  /-- Raised by `step` after the normal end: the block has no step; the run is finished (R131, R132, R135). Safe. -/
  | noStepHalted
  /-- Raised by `step` after a fault entry: the block has no step; the run is failed (R131, R205). Safe. -/
  | noStepFaulted
  /-- Raised by an access to a cell while dp is 30000 or more, where no cell exists. R22 and R57 say that dp never holds
  such a value, and the invariant of Safety.lean excludes it. Safe. -/
  | cellAbsent
  deriving DecidableEq, Repr

/-- Why the model gives no meaning. -/
inductive Refusal where
  /-- Raised by no arm: every instruction of the table has its meaning. Safe. -/
  | notModelled (mnemonic : String)
  /-- wf_len fails: PROG_LEN exceeds IMEM_DEPTH. Raised by `step` and by reset release (R115, D15). Safe. -/
  | imageTooLong
  /-- wf_count fails: a count instruction has count 0. Raised by `step` and by reset release (R76, R115, I4). Safe. -/
  | countZero
  /-- wf_zero fails: a ReadByte or WriteByte has a nonzero operand. Raised by `step` and by reset release (R76, R115,
  I4). Safe. -/
  | operandNotZero
  /-- wf_pair fails: a jump and its target do not name each other. Raised by `step` and by reset release (R76, R113,
  R115, I3). Safe. -/
  | bracketsNotPaired
  /-- Raised by a host write to an IMEM index at or above IMEM_DEPTH, where no word exists. Safe. -/
  | imemIndexAbsent
  /-- Raised by a host write to a status register index above 5 (R33 has six registers). Safe. -/
  | registerAbsent
  deriving DecidableEq, Repr

/-- The tape: the nonzero cells by index, strictly rising; an unlisted cell reads 0 (R36, R58). -/
abbrev Memory := List Host.Cell

/-- Instruction memory: the nonzero words by index, strictly rising. A word the host has not written reads 0x00000000,
which is not well-formed, so an image that misses a word is refused. [DESIGN CHOICE, log entry 3: safe] -/
abbrev Imem := List (Nat × Word)

/-- All the state of R20, the parameters (R35), the channels of R34 and the observations of R38. -/
structure State where
  /-- EOF_POLICY, HAS_CANCEL and IMEM_DEPTH (R9, R33, R35). -/
  cfg : Config
  /-- M (R27). -/
  mem : Memory
  /-- dp (R22). -/
  dp : Dp
  /-- pc (R24). -/
  pc : Pc
  /-- IMEM (R26). -/
  imem : Imem
  /-- PROG_LEN = N (R25). -/
  progLen : Pc
  /-- RUN_STATE (R30). -/
  runState : RunState
  /-- FAULT_CAUSE (R31). -/
  faultCause : FaultCause
  /-- FAULT_PC (R32). -/
  faultPc : Pc
  /-- FAULT_DP (R32). -/
  faultDp : Dp
  /-- The bytes the host has supplied and no ReadByte has taken, the next one first (R172). -/
  input : List Byte
  /-- The host has closed the input stream (R172). -/
  inputClosed : Bool
  /-- The bytes this run has taken from the input channel, the first one first (R38). -/
  consumed : List Byte
  /-- The bytes this run has emitted, the first one first (R174). -/
  output : List Byte
  /-- The level of the cancel input (R209). -/
  cancel : Bool
  deriving DecidableEq, Repr

/-- The machine right after reset release (R36, R230), with the default parameters and with nothing loaded.
[DESIGN CHOICE, log entries 1, 2 and 4: the spec gives IMEM, PROG_LEN and the input channel no reset value] -/
def State.reset : State where
  cfg := Config.reference
  mem := []
  dp := 0
  pc := 0
  imem := []
  progLen := 0
  runState := .run
  faultCause := .none
  faultPc := 0
  faultDp := 0
  input := []
  inputClosed := false
  consumed := []
  output := []
  cancel := false

/-- What a step answers. -/
abbrev Outcome := Host.Outcome State Fault Refusal

end Sys2Proof.Machine
end

