-- ==== Sys2Proof/Machine/Store.lean ====
section
/-! DEFINITION. A sparse store: a list of entries by index in one canonical form, with a value that unlisted indices read
as. The tape and instruction memory are both kept so. -/

namespace Sys2Proof.Machine

/-- What index `a` reads as; `d` where nothing is listed. -/
def Store.read {α : Type} (d : α) : List (Nat × α) → Nat → α
  | [], _ => d
  | (k, x) :: rest, a => if k = a then x else Store.read d rest a

/-- Sets index `a` to `v`, keeping the canonical form: writing `d` removes the entry. -/
def Store.write {α : Type} [DecidableEq α] (d : α) : List (Nat × α) → Nat → α → List (Nat × α)
  | [], a, v => if v = d then [] else [(a, v)]
  | (k, x) :: rest, a, v =>
    if a < k then (if v = d then (k, x) :: rest else (a, v) :: (k, x) :: rest)
    else if a = k then (if v = d then rest else (k, v) :: rest)
    else (k, x) :: Store.write d rest a v

/-- The indices rise strictly from `lo` on, stay below `bound`, and no entry holds `d`. -/
def Store.wfFrom {α : Type} [DecidableEq α] (d : α) (bound : Nat) : Nat → List (Nat × α) → Bool
  | _, [] => true
  | lo, (k, x) :: rest => lo ≤ k && k < bound && x ≠ d && Store.wfFrom d bound (k + 1) rest

/-- The canonical form, with every index below `bound`. -/
def Store.wf {α : Type} [DecidableEq α] (d : α) (bound : Nat) (l : List (Nat × α)) : Bool :=
  Store.wfFrom d bound 0 l

end Sys2Proof.Machine
end

