-- ==== Sys2Proof/Machine/Ops.lean ====
section
/-! DEFINITION. The named operations over the state (00_scope.md R11): cells, fetch, the two channels, and the ends of a
step (41_cycle.md R131, R135), with fault entry (60_exceptions.md R204). -/

namespace Sys2Proof.Machine

/-- The canonical form of the tape: entries rising, none zero, all below CELLS. -/
def Memory.wf (m : Memory) : Bool := Store.wf 0 cells m

/-- `MemRead(a, 1)`: an unwritten cell reads 0 (R11, R36, R58). -/
def Memory.read (m : Memory) (a : Nat) : Byte := Store.read 0 m a

/-- `MemWrite(a, 1, v)` (R11). -/
def Memory.write (m : Memory) (a : Nat) (v : Byte) : Memory := Store.write 0 m a v

/-- The canonical form of instruction memory, all entries below IMEM_DEPTH. -/
def Imem.wf (depth : Nat) (m : Imem) : Bool := Store.wf 0 depth m

/-- The word at an index of instruction memory; an unwritten one reads 0x00000000. -/
def Imem.read (m : Imem) (i : Nat) : Word := Store.read 0 m i

/-- A host write of one word (R231). -/
def Imem.write (m : Imem) (i : Nat) (w : Word) : Imem := Store.write 0 m i w

/-- `IMEM[i]`: the decoded instruction at index `i` (R11, R75). -/
def State.fetch (s : State) (i : Nat) : Instr := decode (Imem.read s.imem i)

/-- The value of the cell at the cursor (R51). -/
def State.cell (s : State) : Byte := Memory.read s.mem s.dp.toNat

/-- `MemWrite(dp, 1, v)`: set the cell at the cursor (R11, R51). -/
def State.setCell (s : State) (v : Byte) : State :=
  { s with mem := Memory.write s.mem s.dp.toNat v }

/-- `dp <- d` (R11). -/
def State.setDp (s : State) (d : Nat) : State := { s with dp := BitVec.ofNat 15 d }

/-- `Next(p)`: the step retires and the cycle adds 1 after it (R131, R134). -/
def State.retire (s : State) (p : Pc) : State := { s with pc := p + 1, runState := .run }

/-- `Wait`: only RUN_STATE changes (R131, R135, R173). -/
def State.wait (s : State) : State := { s with runState := .waitIn }

/-- `halt`: only RUN_STATE changes (R11, R132). -/
def State.halt (s : State) : State := { s with runState := .halted }

/-- `raise F(pc0, dp0)`: fault entry. It records the cause, the index of the instruction and the cursor; pc, dp, M and
both channels keep their values, and the machine takes no further step (R204, D8). There is no return (R205). -/
def State.enterFault (s : State) (cause : FaultCause) (pc0 : Pc) (dp0 : Dp) : State :=
  { s with runState := .faulted, faultCause := cause, faultPc := pc0, faultDp := dp0 }

/-- An answer of the input channel (R11, R172). -/
inductive InAnswer where
  | byte (b : Byte)
  | eof
  | noneYet
  deriving DecidableEq, Repr

/-- `InRead()`: the next supplied byte; when all are taken, EOF once the host has closed the stream, and on every later
request (R172). -/
def State.inRead (s : State) : InAnswer :=
  match s.input, s.inputClosed with
  | b :: _, _ => .byte b
  | [], true => .eof
  | [], false => .noneYet

/-- Consumes the byte `InRead()` answered (R172): the next byte of the stream is taken and joins the record of the
consumed input (R38). -/
def State.takeInput (s : State) : State :=
  { s with input := s.input.drop 1, consumed := s.consumed ++ s.input.take 1 }

/-- `OutWrite(b)`: append one byte to the output channel (R11, R174). The sink always accepts (R175).
[DESIGN CHOICE of the spec, D11, log entry 12: unsafe where a sink can refuse for ever] -/
def State.outWrite (s : State) (b : Byte) : State := { s with output := s.output ++ [b] }

end Sys2Proof.Machine
end

