-- ==== Sys2Proof/Machine/Operands.lean ====
section
/-! DEFINITION. The operand forms (30_encoding.md R74) and the one addressing mode, the cell at the cursor (20_memory.md
R51). -/

namespace Sys2Proof.Machine

/-- A count: the operand as an unsigned number, neither scaled nor signed (R74). -/
def countOf (n : Operand) : Nat := n.toNat

/-- A target: the operand zero-extended to the width of pc, an absolute index (R74). -/
def targetOf (t : Operand) : Pc := t.setWidth 30

/-- The cell operand: gives the value of the cell at the cursor to `k`. Where dp names no cell there is nothing to
access, and the step stops by name (R22, R57; log entry 7: safe). -/
def State.withCell (s : State) (k : Byte → Outcome) : Outcome :=
  if s.dp.toNat < cells then k s.cell else .fault .cellAbsent

end Sys2Proof.Machine
end

