-- ==== Sys2Proof/Machine/Flags.lean ====
section
/-! DEFINITION. The block has no flags (10_state.md R23). The one condition is whether the byte at the cursor is 0, and
the arithmetic on a cell gives no carry, borrow or overflow (43_cell_arith.md R160 to R162). -/

namespace Sys2Proof.Machine

/-- The one condition of the instruction set (R23). -/
def isZero (v : Byte) : Bool := v = 0

/-- `(v + n) mod 256` on exact numbers (R160). -/
def addMod (v : Byte) (n : Nat) : Byte := BitVec.ofNat 8 ((v.toNat + n) % 256)

/-- `(v - n) mod 256` with the result in 0..255, as R161 spells it: `(v + 256 - (n mod 256)) mod 256`. -/
def subMod (v : Byte) (n : Nat) : Byte := BitVec.ofNat 8 ((v.toNat + 256 - n % 256) % 256)

end Sys2Proof.Machine
end

