-- ==== Sys2Proof/Machine/CellArith.lean ====
section
/-! DEFINITION. Increment and Decrement (43_cell_arith.md). -/

namespace Sys2Proof.Machine

/-- Increment(n) (R160). -/
def execIncrement (n : Operand) (s : State) : Outcome :=
  s.withCell fun v => .next ((s.setCell (addMod v (countOf n))).retire s.pc)

/-- Decrement(n) (R161). -/
def execDecrement (n : Operand) (s : State) : Outcome :=
  s.withCell fun v => .next ((s.setCell (subMod v (countOf n))).retire s.pc)

end Sys2Proof.Machine
end

