-- ==== Sys2Proof/Machine/Cursor.lean ====
section
/-! DEFINITION. MoveLeft and MoveRight (42_cursor.md). -/

namespace Sys2Proof.Machine

/-- MoveLeft(n) (R150): the check is on the exact difference. -/
def execMoveLeft (n : Operand) (s : State) : Outcome :=
  if countOf n > s.dp.toNat then .next (s.enterFault .cellRangeError s.pc s.dp)
  else .next ((s.setDp (s.dp.toNat - countOf n)).retire s.pc)

/-- MoveRight(n) (R151): the check is on the exact sum, with no 15-bit wrap. -/
def execMoveRight (n : Operand) (s : State) : Outcome :=
  if s.dp.toNat + countOf n ≥ cells then .next (s.enterFault .cellRangeError s.pc s.dp)
  else .next ((s.setDp (s.dp.toNat + countOf n)).retire s.pc)

end Sys2Proof.Machine
end

