-- ==== Sys2Proof/Machine/InputOutput.lean ====
section
/-! DEFINITION. ReadByte and WriteByte (44_io.md). -/

namespace Sys2Proof.Machine

/-- What ReadByte does at end-of-input (R171). -/
def State.atEof (s : State) : Outcome :=
  match s.cfg.eofPolicy with
  | .fault => .next (s.enterFault .inputExhausted s.pc s.dp)
  | .storeZero => s.withCell fun _ => .next ((s.setCell 0).retire s.pc)
  | .unchanged => .next (s.retire s.pc)

/-- ReadByte (R170). The operand is 0 in every image that runs (R74, R115). -/
def execReadByte (_x : Operand) (s : State) : Outcome :=
  match s.inRead with
  | .noneYet => .next s.wait
  | .byte b => s.withCell fun _ => .next ((s.takeInput.setCell b).retire s.pc)
  | .eof => s.atEof

/-- WriteByte (R174). The operand is 0 in every image that runs (R74, R115). -/
def execWriteByte (_x : Operand) (s : State) : Outcome :=
  s.withCell fun v => .next ((s.outWrite v).retire s.pc)

end Sys2Proof.Machine
end

