-- ==== Sys2Proof/Machine/Jumps.lean ====
section
/-! DEFINITION. JumpIfZero and JumpIfNonZero (45_jumps.md). The target is not checked at run time (R194). -/

namespace Sys2Proof.Machine

/-- JumpIfZero(t) (R190). -/
def execJumpIfZero (t : Operand) (s : State) : Outcome :=
  s.withCell fun v => .next (s.retire (if isZero v then targetOf t else s.pc))

/-- JumpIfNonZero(t) (R191). -/
def execJumpIfNonZero (t : Operand) (s : State) : Outcome :=
  s.withCell fun v => .next (s.retire (if isZero v then s.pc else targetOf t))

end Sys2Proof.Machine
end

