-- ==== Sys2Proof/Machine/Dispatch.lean ====
section
/-! DEFINITION. The instruction dispatcher (41_cycle.md R133): the decoded instruction selects exactly one rule. -/

namespace Sys2Proof.Machine

def exec (i : Instr) (s : State) : Host.Outcome State Fault Refusal :=
  match i with
  | .moveLeft n => Sys2Proof.Machine.execMoveLeft n s
  | .moveRight n => Sys2Proof.Machine.execMoveRight n s
  | .increment n => Sys2Proof.Machine.execIncrement n s
  | .decrement n => Sys2Proof.Machine.execDecrement n s
  | .readByte x => Sys2Proof.Machine.execReadByte x s
  | .writeByte x => Sys2Proof.Machine.execWriteByte x s
  | .jumpIfZero t => Sys2Proof.Machine.execJumpIfZero t s
  | .jumpIfNonZero t => Sys2Proof.Machine.execJumpIfNonZero t s

end Sys2Proof.Machine
end

