-- ==== Sys2Proof/Machine/Image.lean ====
section
/-! DEFINITION. WF of an image (40_loader.md R115) and the model's admission of one (R115, D15, 93 I3 and I4). The block
itself never re-validates (45_jumps.md R194; 90_conflicts.md C6). -/

namespace Sys2Proof.Machine

/-- `p` holds of every index below the second argument. -/
def allBelow (p : Nat → Bool) : Nat → Bool
  | 0 => true
  | n + 1 => p n && allBelow p n

/-- wf_len (R115). -/
def wfLen (depth n : Nat) : Bool := n ≤ depth

/-- wf_count for the whole image (R115). -/
def wfCountAll (fetch : Nat → Instr) (n : Nat) : Bool := allBelow (fun i => (fetch i).wfCount) n

/-- wf_zero for the whole image (R115). -/
def wfZeroAll (fetch : Nat → Instr) (n : Nat) : Bool := allBelow (fun i => (fetch i).wfZero) n

/-- wf_pair for the whole image (R113, R115). -/
def wfPairAll (fetch : Nat → Instr) (n : Nat) : Bool :=
  allBelow (fun i => (fetch i).wfPair fetch n i) n

/-- `WF(IMEM, N)`: the conjunction of the named checks (R115). -/
def wfImage (depth : Nat) (fetch : Nat → Instr) (n : Nat) : Bool :=
  wfLen depth n && wfCountAll fetch n && wfZeroAll fetch n && wfPairAll fetch n

/-- The first of the named checks of R115 that fails, in its order. -/
def checkImage (depth : Nat) (fetch : Nat → Instr) (n : Nat) : Option Refusal :=
  if !wfLen depth n then some .imageTooLong
  else if !wfCountAll fetch n then some .countZero
  else if !wfZeroAll fetch n then some .operandNotZero
  else if !wfPairAll fetch n then some .bracketsNotPaired
  else none

/-- WF of the image the machine holds. -/
def State.imageWf (s : State) : Bool := wfImage s.cfg.imemDepth.val s.fetch s.progLen.toNat

/-- Why the model refuses the image the machine holds; none when it is WF (R115). -/
def State.admission (s : State) : Option Refusal :=
  checkImage s.cfg.imemDepth.val s.fetch s.progLen.toNat

/-- The instruction at an index of a loader image. -/
def imageFetch (img : Image) (i : Nat) : Instr := decode (img.words.getD i 0)

/-- WF of a loader image, whose N is its number of words (R100, R115). -/
def imageIsWf (depth : Nat) (img : Image) : Bool := wfImage depth (imageFetch img) img.words.length

/-- Instruction memory that holds the words from index `i` on, in canonical form. -/
def Imem.ofWordsFrom : Nat → List Word → Imem
  | _, [] => []
  | i, w :: ws => if w = 0 then Imem.ofWordsFrom (i + 1) ws else (i, w) :: Imem.ofWordsFrom (i + 1) ws

/-- The words of the smallest program around one instruction: `w` at index `p`, and at every other index of `n` a
WriteByte, which is well-formed anywhere; `partner` names the index and word of the matching bracket of a jump. -/
def wordsAround (w : Word) (p n : Nat) (partner : Option (Nat × Word)) : List Word :=
  let ws := (List.replicate n (encode (.writeByte 0))).set p w
  match partner with
  | some (q, v) => ws.set q v
  | none => ws

/-- The machine about to run the program `ws` at index `p`. -/
def State.withProgram (s : State) (p : Nat) (ws : List Word) : State :=
  { s with
    pc := BitVec.ofNat 30 p
    imem := Imem.ofWordsFrom 0 ws
    progLen := BitVec.ofNat 30 ws.length
    runState := .run
    cancel := false }

/-- The longest program `placeWord` writes out. -/
abbrev placeLimit : Nat := 1024

/-- The machine about to run `w`: a program that holds `w` at pc and is well-formed where any program that holds `w` is.
A jump needs its matching bracket, at its target (R113): for a JumpIfZero at or above its target pc becomes 0, and for a
JumpIfNonZero at or below its target pc becomes target + 1, since no well-formed program has the jump where pc stands.
A jump whose target is `placeLimit` or more is placed without the words between (log entry 15). -/
def State.placeWord (s : State) (w : Word) : State :=
  let pc := s.pc.toNat
  match (decode w).zeroTarget?, (decode w).nonZeroTarget? with
  | some t, _ =>
    let p := if pc < t then pc else 0
    if p < t && t < placeLimit then
      s.withProgram p (wordsAround w p (t + 1) (some (t, encode (.jumpIfNonZero (BitVec.ofNat 29 p)))))
    else s.withProgram pc (wordsAround w pc (pc + 1) none)
  | none, some t =>
    let p := if t < pc then pc else t + 1
    if t < placeLimit then
      s.withProgram p (wordsAround w p (p + 1) (some (t, encode (.jumpIfZero (BitVec.ofNat 29 p)))))
    else s.withProgram pc (wordsAround w pc (pc + 1) none)
  | none, none => s.withProgram pc (wordsAround w pc (pc + 1) none)

end Sys2Proof.Machine
end

