-- ==== Sys2Proof/Machine/Cycle.lean ====
section
/-! DEFINITION. The step of the block (41_cycle.md R131) and the model's guard around it. -/

namespace Sys2Proof.Machine

/-- Cancel is asserted on an implementation that has it (R209). -/
def State.cancelAsserted (s : State) : Bool := s.cfg.hasCancel && s.cancel

/-- `Step()` of R131, from RUN or WAIT_IN: cancel first, then halt, then the instruction at pc (R210). -/
def State.blockStep (s : State) : Outcome :=
  if s.cancelAsserted then .next (s.enterFault .cancelled s.pc s.dp)
  else if s.progLen.toNat ≤ s.pc.toNat then .next s.halt
  else exec (s.fetch s.pc.toNat) s

/-- The model refuses to run an image that is not WF (R115, D15): the block's step happens on an admitted image only.
[DEDUCED, log entry 5: safe] -/
def State.guardedStep (s : State) : Outcome :=
  match s.admission with
  | some r => .refused r
  | none => s.blockStep

/-- A step is defined only while RUN_STATE is RUN or WAIT_IN (R131). Elsewhere the model stops by name.
[DEDUCED, log entry 6: safe] -/
def State.stepByRunState (s : State) : Outcome :=
  match s.runState with
  | .reset => .fault .noStepInReset
  | .run => s.guardedStep
  | .waitIn => s.guardedStep
  | .halted => .fault .noStepHalted
  | .faulted => .fault .noStepFaulted

end Sys2Proof.Machine
end

