-- ==== Sys2Proof/Machine/Step.lean ====
section
/-! DEFINITION. The step of the machine, and a state about to run one given instruction. -/

namespace Sys2Proof.Machine

/-- One step of the machine (41_cycle.md R131, R135). -/
def step (s : State) : Outcome := s.stepByRunState

/-- The machine about to run one given word: a program that holds it is loaded as if from outside (log entry 15). -/
def State.withFetchWord (s : State) (nbits w : Nat) : State := s.placeWord (tableWord nbits w)

end Sys2Proof.Machine
end

