-- ==== Sys2Proof/Machine/Loader.lean ====
section
/-! DEFINITION. The loader, the source's assembler (40_loader.md): a pure function from source bytes to an image or an
error (R100). It is a host-side function, never run by the block (R6, D22). -/

namespace Sys2Proof.Machine

/-- The significant sequence S (R102): the operator bytes in order, each with its source offset, counted from `off`. -/
def significantFrom : Nat → List Byte → List (Nat × Operator)
  | _, [] => []
  | off, b :: rest =>
    match operatorOf? b with
    | some op => (off, op) :: significantFrom (off + 1) rest
    | none => significantFrom (off + 1) rest

/-- Which operators collapse (R70, R104, R105). -/
def collapses : Operator → Bool
  | .less => true
  | .greater => true
  | .plus => true
  | .minus => true
  | .comma => false
  | .dot => false
  | .openBracket => false
  | .closeBracket => false

/-- Puts one significant element in front of the groups of those after it: it joins the next group when both are the
same collapsing operator (R104, R106). -/
def consGroup (off : Nat) (op : Operator) : List Group → List Group
  | [] => [⟨off, op, 1⟩]
  | g :: gs => if collapses op && op == g.op then ⟨off, op, g.count + 1⟩ :: gs else ⟨off, op, 1⟩ :: g :: gs

/-- The groups of S, in order: maximal runs of `<` `>` `+` `-`, and single `,` `.` `[` `]` (R103). -/
def groupsOf : List (Nat × Operator) → List Group
  | [] => []
  | (off, op) :: rest => consGroup off op (groupsOf rest)

/-- The single pass of R119 over the groups: `out` is the output so far, and `stack` holds the index and source offset
of each pending `[`, the most recent first (R107, R108, R109). -/
def assemble : List Group → List LoadTerm → List (Nat × Nat) → Except LoadError (List LoadTerm)
  | [], out, [] => .ok out
  | [], _, (_, off) :: _ => .error (.unclosedLoop off)
  | g :: gs, out, stack =>
    match g.op with
    | .less => assemble gs (out ++ [⟨.less, g.count⟩]) stack
    | .greater => assemble gs (out ++ [⟨.greater, g.count⟩]) stack
    | .plus => assemble gs (out ++ [⟨.plus, g.count⟩]) stack
    | .minus => assemble gs (out ++ [⟨.minus, g.count⟩]) stack
    | .comma => assemble gs (out ++ [⟨.comma, 0⟩]) stack
    | .dot => assemble gs (out ++ [⟨.dot, 0⟩]) stack
    | .openBracket => assemble gs (out ++ [⟨.openBracket, 0⟩]) ((out.length, g.off) :: stack)
    | .closeBracket =>
      match stack with
      | [] => .error (.unmatchedCloseBracket g.off)
      | (p, _) :: rest =>
        assemble gs (List.set (out ++ [LoadTerm.mk .closeBracket p]) p (LoadTerm.mk .openBracket out.length)) rest

/-- The source offset of the first group whose count or target does not fit the operand field (R114). -/
def overflowAt : List Group → List LoadTerm → Option Nat
  | g :: gs, x :: xs => if x.arg ≥ 2 ^ 29 then some g.off else overflowAt gs xs
  | _, _ => none

/-- The source offset of the first group that does not fit IMEM_DEPTH (R114). -/
def tooLongAt (depth : Nat) (gs : List Group) (out : List LoadTerm) : Option Nat :=
  if out.length > depth then gs[depth]?.map Group.off else none

/-- The two limits checked after bracket matching, in order, and then the encoding (R114). -/
def finishLoad (depth : Nat) (gs : List Group) (out : List LoadTerm) : Except LoadError Image :=
  match tooLongAt depth gs out, overflowAt gs out with
  | some off, _ => .error (.programTooLong off)
  | none, some off => .error (.operandOverflow off)
  | none, none => .ok ⟨out.map fun x => encode x.instr⟩

/-- `Load(src)` (R100, R119) for an implementation with IMEM_DEPTH = `depth`. -/
def load (depth : Nat) (src : List Byte) : Except LoadError Image :=
  match assemble (groupsOf (significantFrom 0 src)) [] [] with
  | .error e => .error e
  | .ok out => finishLoad depth (groupsOf (significantFrom 0 src)) out

/-- The code of a loader error (R206). -/
def loadErrorCode : LoadError → BitVec 8
  | .unmatchedCloseBracket _ => 0x10#8
  | .unclosedLoop _ => 0x11#8
  | .programTooLong _ => 0x12#8
  | .operandOverflow _ => 0x13#8

/-- The source offset a loader error reports (R206). -/
def loadErrorPosition : LoadError → Nat
  | .unmatchedCloseBracket pos => pos
  | .unclosedLoop pos => pos
  | .programTooLong pos => pos
  | .operandOverflow pos => pos

end Sys2Proof.Machine
end

