-- ==== Sys2Proof/Machine/HostPort.lean ====
section
/-! DEFINITION. The external interface (10_state.md R33, R34): image load, reset, the input channel, status registers
and cancel, and the boot order (70_reset_and_hazards.md R231). -/

namespace Sys2Proof.Machine

/-- EOF_POLICY as CONFIG[1:0] holds it (R33, R171). -/
def eofPolicyCode : EofPolicy → BitVec 2
  | .fault => 0
  | .storeZero => 1
  | .unchanged => 2

/-- RUN_STATE as its register holds it (R30). -/
def runStateCode : RunState → BitVec 3
  | .reset => 0
  | .run => 1
  | .waitIn => 2
  | .halted => 3
  | .faulted => 4

/-- FAULT_CAUSE as its register holds it (R201). -/
def faultCauseCode : FaultCause → BitVec 8
  | .none => 0
  | .cellRangeError => 1
  | .inputExhausted => 2
  | .cancelled => 3

/-- The CONFIG register: bits [1:0] EOF_POLICY, bit [2] HAS_CANCEL (R33). -/
def configCode (c : Config) : BitVec 3 := BitVec.ofBool c.hasCancel ++ eofPolicyCode c.eofPolicy

/-- A host read of a status register (R33); the unused high bits read as 0. None for an index with no register.
[DESIGN CHOICE, log entry 11: safe, the spec gives no bus width and 32 bits hold every register] -/
def State.readStatus (s : State) (index : Nat) : Option (BitVec 32) :=
  match index with
  | 0 => some ((runStateCode s.runState).setWidth 32)
  | 1 => some ((faultCauseCode s.faultCause).setWidth 32)
  | 2 => some (s.faultPc.setWidth 32)
  | 3 => some (s.faultDp.setWidth 32)
  | 4 => some (s.progLen.setWidth 32)
  | 5 => some ((configCode s.cfg).setWidth 32)
  | _ => none

/-- What the host can do to the block between two steps (R34, R60). -/
inductive HostAction where
  /-- Assert reset (R230). -/
  | assertReset
  /-- Release reset (R230). -/
  | releaseReset
  /-- Write one word of instruction memory (R26, R231). -/
  | writeImem (index : Nat) (w : Word)
  /-- Write a status register (R33). -/
  | writeStatus (index : Nat) (v : BitVec 32)
  /-- Supply the next byte of the input stream (R172). -/
  | supplyByte (b : Byte)
  /-- Close the input stream (R172). -/
  | closeInput
  /-- Drive the cancel level (R209). -/
  | setCancel (level : Bool)
  deriving DecidableEq, Repr

/-- Reset asserted in any run state: the current run is abandoned (R230). The fault registers hold 0 whenever RUN_STATE
is not FAULTED (R31, R32), so they are cleared here as well as at release. [DEDUCED, log entry 8: safe] -/
def State.assertReset (s : State) : State :=
  { s with runState := .reset, faultCause := .none, faultPc := 0, faultDp := 0 }

/-- The state after reset release (R36, R230): cells, dp, pc and the fault registers are 0, RUN_STATE is RUN, IMEM and
PROG_LEN stay as loaded, and this run has emitted and taken nothing (R37). The input channel is the host's. -/
def State.freshRun (s : State) : State :=
  { s with
    mem := []
    dp := 0
    pc := 0
    runState := .run
    faultCause := .none
    faultPc := 0
    faultDp := 0
    consumed := []
    output := [] }

/-- Reset release. The model refuses to start a run on an image that is not WF (R115, D15). Without reset asserted there
is nothing to release. [DEDUCED, log entry 13: safe] -/
def State.releaseReset (s : State) : Outcome :=
  match s.runState with
  | .reset =>
    match s.admission with
    | some r => .refused r
    | none => .next s.freshRun
  | .run => .next s
  | .waitIn => .next s
  | .halted => .next s
  | .faulted => .next s

/-- A host write of a word of IMEM: ignored outside RESET (R26, R235). At or above IMEM_DEPTH no word exists.
[DESIGN CHOICE, log entry 10: safe] -/
def State.hostWriteImem (s : State) (index : Nat) (w : Word) : Outcome :=
  if s.runState = .reset then
    if index < s.cfg.imemDepth.val then .next { s with imem := Imem.write s.imem index w }
    else .refused .imemIndexAbsent
  else .next s

/-- A host write of a status register: PROG_LEN takes it in RESET only, a write to a read-only register is ignored
(R33). PROG_LEN takes the low 30 bits. [DESIGN CHOICE, log entries 10 and 11: safe] -/
def State.hostWriteStatus (s : State) (index : Nat) (v : BitVec 32) : Outcome :=
  match index with
  | 0 => .next s
  | 1 => .next s
  | 2 => .next s
  | 3 => .next s
  | 4 => if s.runState = .reset then .next { s with progLen := v.setWidth 30 } else .next s
  | 5 => .next s
  | _ => .refused .registerAbsent

/-- The host supplies the next byte of the stream. After it has closed the stream every request answers EOF (R172), so
nothing joins a closed stream. [DEDUCED, log entry 9: safe] -/
def State.supplyByte (s : State) (b : Byte) : State :=
  if s.inputClosed then s else { s with input := s.input ++ [b] }

/-- The host closes the input stream (R172). -/
def State.closeInput (s : State) : State := { s with inputClosed := true }

/-- The host drives cancel. Without HAS_CANCEL the input does not exist (R34, R209). -/
def State.setCancel (s : State) (level : Bool) : State :=
  if s.cfg.hasCancel then { s with cancel := level } else s

/-- One action of the host. -/
def hostAct (a : HostAction) (s : State) : Outcome :=
  match a with
  | .assertReset => .next s.assertReset
  | .releaseReset => s.releaseReset
  | .writeImem index w => s.hostWriteImem index w
  | .writeStatus index v => s.hostWriteStatus index v
  | .supplyByte b => .next (s.supplyByte b)
  | .closeInput => .next s.closeInput
  | .setCancel level => .next (s.setCancel level)

/-- Actions of the host, one after the other, up to the first that is refused. -/
def hostActs : List HostAction → State → Outcome
  | [], s => .next s
  | a :: rest, s =>
    match hostAct a s with
    | .next t => hostActs rest t
    | .fault r => .fault r
    | .refused r => .refused r

/-- The writes of the words of an image, from index `i` on (R231 step 2). -/
def imageWrites : Nat → List Word → List HostAction
  | _, [] => []
  | i, w :: ws => .writeImem i w :: imageWrites (i + 1) ws

/-- What the host does to start a run of an image (R231 steps 2 and 4): with reset asserted it writes IMEM[0..N-1] and
PROG_LEN = N, and releases reset. -/
def bootActions (img : Image) : List HostAction :=
  .assertReset :: imageWrites 0 img.words ++
    [.writeStatus 4 (BitVec.ofNat 32 img.words.length), .releaseReset]

/-- The boot order of R231: the host runs the loader, stops on an error, and otherwise loads the image and releases
reset. -/
def boot (src : List Byte) (s : State) : Except LoadError Outcome :=
  match load s.cfg.imemDepth.val src with
  | .error e => .error e
  | .ok img => .ok (hostActs (bootActions img) s)

end Sys2Proof.Machine
end

