-- ==== Sys2Proof/Safety.lean ====
section
/-! DEFINITION. What a run's end means (R135), the invariant of the machine, and the terms statements about a step are
written in. -/

namespace Sys2Proof.Machine

/-- The run ended normally; the only successful end (R30, R135). -/
def State.finished (s : State) : Prop := s.runState = .halted

/-- The run ended in a fault (R30, R135). -/
def State.failed (s : State) : Prop := s.runState = .faulted

/-- The run is not over: the block steps (R131, R135). -/
def State.active (s : State) : Prop := s.runState = .run ∨ s.runState = .waitIn

/-- The instruction at pc. -/
def State.current (s : State) : Instr := s.fetch s.pc.toNat

/-- An instruction executes in this step: no cancel and no halt come before it (R131, R210). -/
def State.executes (s : State) : Prop :=
  s.active ∧ s.imageWf = true ∧ s.cancelAsserted = false ∧ s.pc.toNat < s.progLen.toNat

/-- `k` steps of the machine, up to the first stop; more steps are no halt (R138). -/
def steps : Nat → State → Outcome
  | 0, s => .next s
  | k + 1, s =>
    match step s with
    | .next t => steps k t
    | .fault r => .fault r
    | .refused r => .refused r

/-- What every state of a run satisfies: the tape and instruction memory in canonical form, dp in 0..29999 (R22), a WF
image once reset is released (R115), pc in 0..N (R24), the wait at a ReadByte (R30), the halt at N (R132), the fault
registers 0 but for FAULTED, where they equal pc and dp as the machine stopped (R31, R32), and each cause raised only
where its parameter allows it (R201, R203, R209). -/
structure State.Inv (s : State) : Prop where
  memWf : Memory.wf s.mem = true
  imemWf : Imem.wf s.cfg.imemDepth.val s.imem = true
  dpInRange : s.dp.toNat < cells
  admitted : s.runState ≠ .reset → s.imageWf = true
  pcInRange : s.runState ≠ .reset → s.pc.toNat ≤ s.progLen.toNat
  waitsAtRead : s.runState = .waitIn → s.pc.toNat < s.progLen.toNat ∧ ∃ x, s.current = .readByte x
  haltedAtEnd : s.runState = .halted → s.pc = s.progLen
  noRecord : s.runState ≠ .faulted → s.faultCause = .none ∧ s.faultPc = 0 ∧ s.faultDp = 0
  record : s.runState = .faulted → s.faultCause ≠ .none ∧ s.faultPc = s.pc ∧ s.faultDp = s.dp
  cancelBacked : s.faultCause = .cancelled → s.cfg.hasCancel = true
  eofBacked : s.faultCause = .inputExhausted → s.cfg.eofPolicy = .fault

/-- What no step changes: the parameters and the program (R26, R35). -/
structure SameProgram (s t : State) : Prop where
  cfg : t.cfg = s.cfg
  imem : t.imem = s.imem
  progLen : t.progLen = s.progLen

/-- The fault registers are unchanged. -/
structure SameRecord (s t : State) : Prop where
  faultCause : t.faultCause = s.faultCause
  faultPc : t.faultPc = s.faultPc
  faultDp : t.faultDp = s.faultDp

/-- The input channel and the cancel level are unchanged. -/
structure SameInput (s t : State) : Prop where
  input : t.input = s.input
  inputClosed : t.inputClosed = s.inputClosed
  consumed : t.consumed = s.consumed
  cancel : t.cancel = s.cancel

/-- Every cell reads as before. -/
def SameCells (s t : State) : Prop := ∀ a, Memory.read t.mem a = Memory.read s.mem a

/-- Every cell but the one at index `a0` reads as before. -/
def SameCellsBut (a0 : Nat) (s t : State) : Prop :=
  ∀ a, a ≠ a0 → Memory.read t.mem a = Memory.read s.mem a

/-- Fault entry (R204): the record is written, and pc, dp, M, the program and both channels keep their values. -/
structure FaultEntered (cause : FaultCause) (s t : State) : Prop where
  runState : t.runState = .faulted
  faultCause : t.faultCause = cause
  faultPc : t.faultPc = s.pc
  faultDp : t.faultDp = s.dp
  pc : t.pc = s.pc
  dp : t.dp = s.dp
  mem : t.mem = s.mem
  program : SameProgram s t
  input : SameInput s t
  output : t.output = s.output

/-- The signed distance of a move (R150, R151); none for another instruction. -/
def moveBy? : Instr → Option Int
  | .moveLeft n => some (-(n.toNat : Int))
  | .moveRight n => some (n.toNat : Int)
  | .increment _ => none
  | .decrement _ => none
  | .readByte _ => none
  | .writeByte _ => none
  | .jumpIfZero _ => none
  | .jumpIfNonZero _ => none

/-- The signed sum of the distances of a sequence of moves (R152). -/
def moveSum (is : List Instr) : Int := (is.map fun i => (moveBy? i).getD 0).sum

/-- The effects of a sequence of instructions, one after the other, without fetch. -/
def execAll : List Instr → State → Outcome
  | [], s => .next s
  | i :: rest, s =>
    match exec i s with
    | .next t => execAll rest t
    | .fault r => .fault r
    | .refused r => .refused r

end Sys2Proof.Machine
end

