-- ==== Sys2Proof/Certificates/Slice0/Obligations.lean ====
section
/-! DEFINITION. The statements for the provers, each from the numbered rules of spec/ its docstring names. -/

open Sys2Proof Sys2Proof.Machine

/-! ### Encoding -/

/-- R80: the seven worked encodings, read and written. -/
def Obligations.WorkedEncodings : Prop :=
  (encode (.increment 5) = 0x40000005#32 ∧ decode 0x40000005#32 = .increment 5) ∧
  (encode (.jumpIfZero 5) = 0xC0000005#32 ∧ decode 0xC0000005#32 = .jumpIfZero 5) ∧
  (encode (.decrement 1) = 0x60000001#32 ∧ decode 0x60000001#32 = .decrement 1) ∧
  (encode (.jumpIfNonZero 1) = 0xE0000001#32 ∧ decode 0xE0000001#32 = .jumpIfNonZero 1) ∧
  (encode (.moveRight 1) = 0x20000001#32 ∧ decode 0x20000001#32 = .moveRight 1) ∧
  (encode (.readByte 0) = 0x80000000#32 ∧ decode 0x80000000#32 = .readByte 0) ∧
  (encode (.writeByte 0) = 0xA0000000#32 ∧ decode 0xA0000000#32 = .writeByte 0)

/-- R73: a word selects row r when (word & mask_r) == match_r, for the match and mask of each of the eight rows, and the
decoded instruction is then that row's, with word[28:0] as its operand. -/
def Obligations.WordSelectsRow : Prop :=
  ∀ w : Word,
    (w &&& 0xE0000000#32 = 0x00000000#32 ↔ decode w = .moveLeft (w.extractLsb' 0 29)) ∧
    (w &&& 0xE0000000#32 = 0x20000000#32 ↔ decode w = .moveRight (w.extractLsb' 0 29)) ∧
    (w &&& 0xE0000000#32 = 0x40000000#32 ↔ decode w = .increment (w.extractLsb' 0 29)) ∧
    (w &&& 0xE0000000#32 = 0x60000000#32 ↔ decode w = .decrement (w.extractLsb' 0 29)) ∧
    (w &&& 0xFFFFFFFF#32 = 0x80000000#32 ↔ decode w = .readByte 0) ∧
    (w &&& 0xFFFFFFFF#32 = 0xA0000000#32 ↔ decode w = .writeByte 0) ∧
    (w &&& 0xE0000000#32 = 0xC0000000#32 ↔ decode w = .jumpIfZero (w.extractLsb' 0 29)) ∧
    (w &&& 0xE0000000#32 = 0xE0000000#32 ↔ decode w = .jumpIfNonZero (w.extractLsb' 0 29))

/-- R72 to R75, R79: decoding the word, or the bytes, of any instruction gives it back with its operand at every value,
and leaves the bytes after it. -/
def Obligations.DecodeOfEncode : Prop :=
  ∀ (i : Instr) (rest : List Byte),
    decode (encode i) = i ∧ decodeBytes (encodeBytes i ++ rest) = .ok (i, rest)

/-- R75, R77: decode is total and drops no bit: every 32-bit word is the encoding of what it decodes to, and no two
instructions share a word. -/
def Obligations.EncodeOfDecode : Prop :=
  ∀ w : Word, encode (decode w) = w ∧ ∀ i, encode i = w → i = decode w

/-- R79: an image of N words is 4·N bytes, word i at byte offsets 4i..4i+3, least significant byte first; and the words
are read back from the bytes. -/
def Obligations.ImageBytesLayout : Prop :=
  ∀ ws : List Word,
    (imageBytes ws).length = 4 * ws.length ∧
    (∀ i j w, j < 4 → ws[i]? = some w → (imageBytes ws)[4 * i + j]? = some (w.extractLsb' (8 * j) 8)) ∧
    imageOfBytes (imageBytes ws) = .ok ws

/-! ### The tape -/

/-- R11, R52, R58: a write sets its cell and leaves every other cell, and keeps the tape's canonical form. -/
def Obligations.CellReadAfterWrite : Prop :=
  ∀ (m : Memory) (a : Nat) (v : Byte), Memory.wf m = true → a < cells →
    Memory.wf (Memory.write m a v) = true ∧
    Memory.read (Memory.write m a v) a = v ∧
    ∀ b, b ≠ a → Memory.read (Memory.write m a v) b = Memory.read m b

/-- Two tapes in canonical form that read alike at every index are the same list. -/
def Obligations.EqualTapesAreEqualData : Prop :=
  ∀ m m' : Memory, Memory.wf m = true → Memory.wf m' = true →
    (∀ a, Memory.read m a = Memory.read m' a) → m = m'

/-! ### The instructions -/

/-- R150: MoveLeft(n) subtracts n from dp on exact numbers and retires; when n > dp it raises CellRangeError and changes
nothing else. Its word is 0b000 ++ n. -/
def Obligations.MoveLeftEffect : Prop :=
  ∀ (n : Operand) (s : State),
    encode (.moveLeft n) = 0b000#3 ++ n ∧
    (1 ≤ n.toNat → n.toNat > s.dp.toNat → ∃ t, exec (.moveLeft n) s = .next t ∧ FaultEntered .cellRangeError s t) ∧
    (1 ≤ n.toNat → n.toNat ≤ s.dp.toNat → s.pc.toNat < s.progLen.toNat →
      ∃ t, exec (.moveLeft n) s = .next t ∧ t.dp.toNat = s.dp.toNat - n.toNat ∧
        t.pc.toNat = s.pc.toNat + 1 ∧ t.runState = .run ∧ t.mem = s.mem ∧ t.output = s.output ∧
        SameProgram s t ∧ SameRecord s t ∧ SameInput s t)

/-- R151: MoveRight(n) adds n to dp on exact numbers and retires; when dp + n >= 30000, with no 15-bit wrap, it raises
CellRangeError and changes nothing else. Its word is 0b001 ++ n. -/
def Obligations.MoveRightEffect : Prop :=
  ∀ (n : Operand) (s : State),
    encode (.moveRight n) = 0b001#3 ++ n ∧
    (1 ≤ n.toNat → s.dp.toNat + n.toNat ≥ 30000 →
      ∃ t, exec (.moveRight n) s = .next t ∧ FaultEntered .cellRangeError s t) ∧
    (1 ≤ n.toNat → s.dp.toNat + n.toNat < 30000 → s.pc.toNat < s.progLen.toNat →
      ∃ t, exec (.moveRight n) s = .next t ∧ t.dp.toNat = s.dp.toNat + n.toNat ∧
        t.pc.toNat = s.pc.toNat + 1 ∧ t.runState = .run ∧ t.mem = s.mem ∧ t.output = s.output ∧
        SameProgram s t ∧ SameRecord s t ∧ SameInput s t)

/-- R160: Increment(n) sets the cell at dp to (v + n) mod 256 and retires; nothing else changes. Its word is
0b010 ++ n. -/
def Obligations.IncrementEffect : Prop :=
  ∀ (n : Operand) (s : State),
    encode (.increment n) = 0b010#3 ++ n ∧
    (1 ≤ n.toNat → Memory.wf s.mem = true → s.dp.toNat < cells → s.pc.toNat < s.progLen.toNat →
      ∃ t, exec (.increment n) s = .next t ∧
        (Memory.read t.mem s.dp.toNat).toNat = ((Memory.read s.mem s.dp.toNat).toNat + n.toNat) % 256 ∧
        SameCellsBut s.dp.toNat s t ∧ t.dp = s.dp ∧ t.pc.toNat = s.pc.toNat + 1 ∧ t.runState = .run ∧
        t.output = s.output ∧ SameProgram s t ∧ SameRecord s t ∧ SameInput s t)

/-- R161: Decrement(n) sets the cell at dp to (v - n) mod 256, the mathematical remainder in 0..255, and retires;
nothing else changes. Its word is 0b011 ++ n. -/
def Obligations.DecrementEffect : Prop :=
  ∀ (n : Operand) (s : State),
    encode (.decrement n) = 0b011#3 ++ n ∧
    (1 ≤ n.toNat → Memory.wf s.mem = true → s.dp.toNat < cells → s.pc.toNat < s.progLen.toNat →
      ∃ t, exec (.decrement n) s = .next t ∧
        ((Memory.read t.mem s.dp.toNat).toNat : Int) =
          ((Memory.read s.mem s.dp.toNat).toNat - (n.toNat : Int)) % 256 ∧
        SameCellsBut s.dp.toNat s t ∧ t.dp = s.dp ∧ t.pc.toNat = s.pc.toNat + 1 ∧ t.runState = .run ∧
        t.output = s.output ∧ SameProgram s t ∧ SameRecord s t ∧ SameInput s t)

/-- R162: Increment(a) then Increment(b) leaves the cells as Increment(a+b) does; Increment(n) then Decrement(n) leaves
them as they were; Decrement(n) leaves them as Increment((256 - n mod 256) mod 256) does, and as they were when that
amount is 0. -/
def Obligations.CellArithmeticLaws : Prop :=
  ∀ (s : State), Memory.wf s.mem = true → s.dp.toNat < cells →
    (∀ a b c : Operand, 1 ≤ a.toNat → 1 ≤ b.toNat → c.toNat = a.toNat + b.toNat →
      ∃ t u v, exec (.increment a) s = .next t ∧ exec (.increment b) t = .next u ∧
        exec (.increment c) s = .next v ∧ SameCells u v) ∧
    (∀ n : Operand, 1 ≤ n.toNat → ∃ t u, exec (.increment n) s = .next t ∧ exec (.decrement n) t = .next u ∧ SameCells s u) ∧
    (∀ n m : Operand, 1 ≤ n.toNat → m.toNat = (256 - n.toNat % 256) % 256 → m.toNat ≠ 0 →
      exec (.decrement n) s = exec (.increment m) s) ∧
    (∀ n : Operand, 1 ≤ n.toNat → n.toNat % 256 = 0 →
      ∃ t u, exec (.increment n) s = .next t ∧ exec (.decrement n) s = .next u ∧ SameCells s t ∧ SameCells s u)

/-- R170, before end-of-input: when the host has supplied a byte ReadByte takes exactly the next one, stores it in the
cell at dp and retires; when none has come yet it waits with no state change but RUN_STATE. Its word is 0x80000000.
ReadByteAtEndOfInput states the remaining case. -/
def Obligations.ReadByteEffect : Prop :=
  ∀ s : State, encode (.readByte 0) = 0x80000000#32 ∧
    (s.input = [] → s.inputClosed = false →
      exec (.readByte 0) s = .next { s with runState := .waitIn }) ∧
    (∀ (b : Byte) (rest : List Byte),
      Memory.wf s.mem = true → s.dp.toNat < cells → s.pc.toNat < s.progLen.toNat → s.input = b :: rest →
        ∃ t, exec (.readByte 0) s = .next t ∧ Memory.read t.mem s.dp.toNat = b ∧
          SameCellsBut s.dp.toNat s t ∧ t.input = rest ∧ t.consumed = s.consumed ++ [b] ∧
          t.inputClosed = s.inputClosed ∧ t.cancel = s.cancel ∧ t.dp = s.dp ∧
          t.pc.toNat = s.pc.toNat + 1 ∧ t.runState = .run ∧ t.output = s.output ∧
          SameProgram s t ∧ SameRecord s t)

/-- R171: at end-of-input ReadByte raises InputExhausted under Fault, stores 0 and retires under StoreZero, and retires
with the cell unchanged under Unchanged. No byte is consumed. -/
def Obligations.ReadByteAtEndOfInput : Prop :=
  ∀ s : State,
    Memory.wf s.mem = true → s.dp.toNat < cells → s.pc.toNat < s.progLen.toNat →
    s.input = [] → s.inputClosed = true →
      (s.cfg.eofPolicy = .fault →
        ∃ t, exec (.readByte 0) s = .next t ∧ FaultEntered .inputExhausted s t) ∧
      (s.cfg.eofPolicy = .storeZero →
        ∃ t, exec (.readByte 0) s = .next t ∧ Memory.read t.mem s.dp.toNat = 0 ∧
          SameCellsBut s.dp.toNat s t ∧ t.dp = s.dp ∧ t.pc.toNat = s.pc.toNat + 1 ∧ t.runState = .run ∧
          t.output = s.output ∧ SameProgram s t ∧ SameRecord s t ∧ SameInput s t) ∧
      (s.cfg.eofPolicy = .unchanged →
        ∃ t, exec (.readByte 0) s = .next t ∧ t.mem = s.mem ∧ t.dp = s.dp ∧
          t.pc.toNat = s.pc.toNat + 1 ∧ t.runState = .run ∧ t.output = s.output ∧
          SameProgram s t ∧ SameRecord s t ∧ SameInput s t)

/-- R170, R172: once all bytes are taken and the host has closed the stream, every later request answers EOF, whatever
the machine and the host do. -/
def Obligations.EndOfInputIsSticky : Prop :=
  ∀ s t : State, s.inRead = .eof → (step s = .next t ∨ ∃ a, hostAct a s = .next t) → t.inRead = .eof

/-- R173, R138, R176: while a ReadByte has no answer, and without cancel, the step changes RUN_STATE to WAIT_IN and
nothing else, and so does every number of further steps: the wait has no timeout, and it is a hang, not a halt. -/
def Obligations.WaitHoldsEveryPieceOfState : Prop :=
  ∀ s : State, s.executes → s.current = .readByte 0 →
    s.input = [] → s.inputClosed = false →
      step s = .next { s with runState := .waitIn } ∧
      ∀ k, steps (k + 1) s = .next { s with runState := .waitIn }

/-- R174: WriteByte appends the byte at dp to the output as is and retires; the cells, dp and the input are unchanged.
Its word is 0xA0000000. -/
def Obligations.WriteByteEffect : Prop :=
  ∀ s : State, encode (.writeByte 0) = 0xA0000000#32 ∧
    (s.dp.toNat < cells → s.pc.toNat < s.progLen.toNat →
      ∃ t, exec (.writeByte 0) s = .next t ∧ t.output = s.output ++ [Memory.read s.mem s.dp.toNat] ∧
        t.mem = s.mem ∧ t.dp = s.dp ∧ t.pc.toNat = s.pc.toNat + 1 ∧ t.runState = .run ∧
        SameProgram s t ∧ SameRecord s t ∧ SameInput s t)

/-- R190: JumpIfZero(t) continues at t + 1 when the byte at dp is 0 and at pc + 1 otherwise; nothing else changes. The
target is not checked. Its word is 0b110 ++ t. -/
def Obligations.JumpIfZeroEffect : Prop :=
  ∀ (t : Operand) (s : State), encode (.jumpIfZero t) = 0b110#3 ++ t ∧
    (s.dp.toNat < cells → s.pc.toNat < s.progLen.toNat →
      ∃ u, exec (.jumpIfZero t) s = .next u ∧
        (Memory.read s.mem s.dp.toNat = 0 → u.pc.toNat = t.toNat + 1) ∧
        (Memory.read s.mem s.dp.toNat ≠ 0 → u.pc.toNat = s.pc.toNat + 1) ∧
        u.mem = s.mem ∧ u.dp = s.dp ∧ u.runState = .run ∧ u.output = s.output ∧
        SameProgram s u ∧ SameRecord s u ∧ SameInput s u)

/-- R191: JumpIfNonZero(t) continues at t + 1 when the byte at dp is not 0 and at pc + 1 otherwise; nothing else
changes. The target is not checked. Its word is 0b111 ++ t. -/
def Obligations.JumpIfNonZeroEffect : Prop :=
  ∀ (t : Operand) (s : State), encode (.jumpIfNonZero t) = 0b111#3 ++ t ∧
    (s.dp.toNat < cells → s.pc.toNat < s.progLen.toNat →
      ∃ u, exec (.jumpIfNonZero t) s = .next u ∧
        (Memory.read s.mem s.dp.toNat ≠ 0 → u.pc.toNat = t.toNat + 1) ∧
        (Memory.read s.mem s.dp.toNat = 0 → u.pc.toNat = s.pc.toNat + 1) ∧
        u.mem = s.mem ∧ u.dp = s.dp ∧ u.runState = .run ∧ u.output = s.output ∧
        SameProgram s u ∧ SameRecord s u ∧ SameInput s u)

/-- R22, R57 (log entry 7): where dp names no cell, which no run reaches, the instructions that access the cell stop by
name, and so does a ReadByte that has a byte to store. -/
def Obligations.AbsentCellStops : Prop :=
  ∀ (x : Operand) (s : State), cells ≤ s.dp.toNat →
    exec (.increment x) s = .fault .cellAbsent ∧ exec (.decrement x) s = .fault .cellAbsent ∧
    exec (.writeByte x) s = .fault .cellAbsent ∧ exec (.jumpIfZero x) s = .fault .cellAbsent ∧
    exec (.jumpIfNonZero x) s = .fault .cellAbsent ∧
    (s.input ≠ [] → exec (.readByte x) s = .fault .cellAbsent)

/-- R152: a sequence of moves changes dp by the signed sum of its counts, provided no prefix of the sequence leaves
0..29999. -/
def Obligations.MovesAddUp : Prop :=
  ∀ (is : List Instr) (s : State), (∀ i ∈ is, moveBy? i ≠ none) → s.runState = .run →
    (∀ k, 0 ≤ (s.dp.toNat : Int) + moveSum (is.take k) ∧
      (s.dp.toNat : Int) + moveSum (is.take k) ≤ 29999) →
    ∃ t, execAll is s = .next t ∧ t.runState = .run ∧
      (t.dp.toNat : Int) = (s.dp.toNat : Int) + moveSum is ∧ t.mem = s.mem

/-! ### The cycle -/

/-- R131: while the run is not over, the image is WF, cancel is not asserted and pc < N, the step is the effect of the
instruction whose bytes lie at pc. -/
def Obligations.StepRunsDecodedInstruction : Prop :=
  ∀ (s : State) (i : Instr), s.executes →
    decodeBytes (wordBytes (Imem.read s.imem s.pc.toNat)) = .ok (i, []) → step s = exec i s

/-- R132: when pc >= N the block enters HALTED, fetches nothing and changes no other state, and HALTED is terminal: no step
follows, which the model answers with a named fault of its own choice (log entry 6, DEDUCED). -/
def Obligations.HaltAtProgramEnd : Prop :=
  ∀ s : State, s.active → s.imageWf = true → s.cancelAsserted = false → s.progLen.toNat ≤ s.pc.toNat →
    step s = .next { s with runState := .halted } ∧ step { s with runState := .halted } = .fault .noStepHalted

/-- R209, R210: asserted cancel is taken before halt and before fetch, also in WAIT_IN, and is a fault entry. Without
HAS_CANCEL the level has no effect on any step. -/
def Obligations.CancelComesFirst : Prop :=
  (∀ s : State, s.active → s.imageWf = true → s.cfg.hasCancel = true → s.cancel = true →
    ∃ t, step s = .next t ∧ FaultEntered .cancelled s t) ∧
  (∀ (s t : State) (level : Bool), s.cfg.hasCancel = false → step s = .next t →
    step { s with cancel := level } = .next { t with cancel := level })

/-- R131, R205: in RESET, HALTED and FAULTED the block has no step. -/
def Obligations.NoStepOutsideRun : Prop :=
  ∀ s : State,
    (s.runState = .reset → step s = .fault .noStepInReset) ∧
    (s.runState = .halted → step s = .fault .noStepHalted) ∧
    (s.runState = .faulted → step s = .fault .noStepFaulted)

/-- R76, R115: the model refuses to step an image that is not WF, by the name of the first check of R115 that fails: an
image longer than IMEM_DEPTH, a count 0, a nonzero operand of ReadByte or WriteByte, or a jump whose pair does not name
it. -/
def Obligations.IllFormedImageRefused : Prop :=
  ∀ s : State, s.active →
    (s.cfg.imemDepth.val < s.progLen.toNat → step s = .refused .imageTooLong) ∧
    (s.progLen.toNat ≤ s.cfg.imemDepth.val →
      (∃ i, i < s.progLen.toNat ∧ (s.fetch i).wfCount = false) → step s = .refused .countZero) ∧
    (s.progLen.toNat ≤ s.cfg.imemDepth.val → (∀ i, i < s.progLen.toNat → (s.fetch i).wfCount = true) →
      (∃ i, i < s.progLen.toNat ∧ (s.fetch i).wfZero = false) → step s = .refused .operandNotZero) ∧
    (s.progLen.toNat ≤ s.cfg.imemDepth.val →
      (∀ i, i < s.progLen.toNat → (s.fetch i).wfCount = true ∧ (s.fetch i).wfZero = true) →
      (∃ i t, i < s.progLen.toNat ∧
        ((s.fetch i = .jumpIfZero t ∧ ¬ (i < t.toNat ∧ t.toNat < s.progLen.toNat ∧
            ∃ u : Operand, u.toNat = i ∧ s.fetch t.toNat = .jumpIfNonZero u)) ∨
         (s.fetch i = .jumpIfNonZero t ∧ ¬ (t.toNat < i ∧
            ∃ u : Operand, u.toNat = i ∧ s.fetch t.toNat = .jumpIfZero u)))) →
      step s = .refused .bracketsNotPaired)

/-- R133, R135: in a run whose state meets the invariant, every step answers a next state: no op value is left without a
rule, and the model stops nowhere but at the end of the run. -/
def Obligations.EveryStepOfARunAnswers : Prop :=
  ∀ s : State, s.Inv → s.active →
    ∃ t, step s = .next t ∧
      (t.runState = .run ∨ t.runState = .waitIn ∨ t.runState = .halted ∨ t.runState = .faulted)

/-- R134, R24: a step that retires a taken jump makes its target + 1 the next pc, and every other step that retires
advances pc by 1. -/
def Obligations.RetireAdvancesPc : Prop :=
  ∀ s t : State, s.Inv → step s = .next t → t.runState = .run →
    (∀ u : Operand, s.current = .jumpIfZero u → s.cell = 0 → t.pc.toNat = u.toNat + 1) ∧
    (∀ u : Operand, s.current = .jumpIfNonZero u → s.cell ≠ 0 → t.pc.toNat = u.toNat + 1) ∧
    ((∀ u : Operand, ¬ (s.current = .jumpIfZero u ∧ s.cell = 0) ∧ ¬ (s.current = .jumpIfNonZero u ∧ s.cell ≠ 0)) →
      t.pc.toNat = s.pc.toNat + 1)

/-- R192: a bracket pair at indices i < j behaves as a while: at either bracket, control goes to i + 1 when the byte at
dp is not 0 at that time, and to j + 1 when it is. -/
def Obligations.BracketPairIsWhile : Prop :=
  ∀ (s : State) (i j : Operand), s.Inv → s.executes →
    s.fetch i.toNat = .jumpIfZero j → s.fetch j.toNat = .jumpIfNonZero i →
    (s.pc.toNat = i.toNat ∨ s.pc.toNat = j.toNat) →
    ∃ t, step s = .next t ∧ t.runState = .run ∧ t.mem = s.mem ∧ t.dp = s.dp ∧
      (s.cell ≠ 0 → t.pc.toNat = i.toNat + 1) ∧ (s.cell = 0 → t.pc.toNat = j.toNat + 1)

/-! ### Whole-machine rules -/

/-- The invariant of Safety.lean holds at reset. Its IMEM, PROG_LEN and channel values are the model's choice (log
entries 1, 2 and 4). -/
def Obligations.ResetMeetsInvariant : Prop := State.reset.Inv

/-- Every step keeps the invariant: dp stays in 0..29999 (R22), pc in 0..N (R24), the image WF (R115), the fault
registers 0 but for FAULTED, where they equal pc and dp (R31, R32), the tape canonical. -/
def Obligations.StepKeepsInvariant : Prop :=
  ∀ s t : State, s.Inv → step s = .next t → t.Inv

/-- Every action of the host keeps the invariant; so a run starts in it, whatever the host loaded (R115, R231). That
asserting reset in FAULTED leaves the fault registers at 0, as R31 and R32 say outside FAULTED, is the model's reading
(log entry 8, DEDUCED: R230 clears them at release). -/
def Obligations.HostActionKeepsInvariant : Prop :=
  ∀ (a : HostAction) (s t : State), s.Inv → hostAct a s = .next t → t.Inv

/-- R26, R35: no step changes IMEM, PROG_LEN or the parameters. -/
def Obligations.ProgramIsImmutable : Prop :=
  ∀ s t : State, step s = .next t → SameProgram s t ∧ t.cancel = s.cancel ∧ t.inputClosed = s.inputClosed

/-- R22: dp is written only by MoveLeft and MoveRight. -/
def Obligations.DpWrittenOnlyByMoves : Prop :=
  ∀ s t : State, step s = .next t → t.dp ≠ s.dp →
    s.executes ∧ ∃ n, s.current = .moveLeft n ∨ s.current = .moveRight n

/-- R50, R51, R55: a step changes no cell but the one at dp, and only an Increment, a Decrement or a ReadByte does. -/
def Obligations.CellsWrittenOnlyAtCursor : Prop :=
  ∀ (s t : State) (a : Nat), step s = .next t → Memory.read t.mem a ≠ Memory.read s.mem a →
    a = s.dp.toNat ∧ s.executes ∧
      ∃ n, s.current = .increment n ∨ s.current = .decrement n ∨ s.current = .readByte n

/-- R63, R174: output only grows, by the byte at dp of one WriteByte. -/
def Obligations.OutputOnlyAppended : Prop :=
  ∀ s t : State, step s = .next t →
    t.output = s.output ∨
    (s.executes ∧ (∃ x, s.current = .writeByte x) ∧ t.output = s.output ++ [s.cell])

/-- R172: the bytes taken and the bytes still to come are one stream that no step changes; a step takes at most the next
byte, only by a retired ReadByte, and a byte taken is stored in the cell at dp. -/
def Obligations.InputTakenInOrder : Prop :=
  ∀ s t : State, s.Inv → step s = .next t →
    t.consumed ++ t.input = s.consumed ++ s.input ∧
    (t.input ≠ s.input →
      s.executes ∧ (∃ x, s.current = .readByte x) ∧ t.runState = .run ∧
      ∃ b, s.input = b :: t.input ∧ t.consumed = s.consumed ++ [b] ∧ Memory.read t.mem s.dp.toNat = b)

/-- R204: faults are precise. A step that ends in FAULTED writes the record, with the faulting index and dp, and changes
nothing else: pc, dp, M, the program and both channels stay. The machine then has no
further step, which the model answers with a named fault of its own choice (log entry 6, DEDUCED). -/
def Obligations.FaultsArePrecise : Prop :=
  ∀ s t : State, step s = .next t → t.runState = .faulted →
    t.faultCause ≠ .none ∧ FaultEntered t.faultCause s t ∧ step t = .fault .noStepFaulted

/-- R201 to R203, R209: which step raises which cause. CellRangeError: a move whose exact new cursor is outside
0..29999. InputExhausted: a ReadByte at end-of-input under the Fault policy. Cancelled: cancel asserted, with
HAS_CANCEL. And a FAULTED state has one of the
three causes, so a step with none of these does not fault. -/
def Obligations.FaultCauses : Prop :=
  ∀ s t : State, s.Inv → step s = .next t →
    ((t.runState = .faulted ∧ t.faultCause = .cancelled) ↔ (s.cfg.hasCancel = true ∧ s.cancel = true)) ∧
    ((t.runState = .faulted ∧ t.faultCause = .cellRangeError) ↔
      (s.executes ∧ ∃ n : Operand,
        (s.current = .moveLeft n ∧ (s.dp.toNat : Int) - n.toNat < 0) ∨
        (s.current = .moveRight n ∧ s.dp.toNat + n.toNat ≥ 30000))) ∧
    ((t.runState = .faulted ∧ t.faultCause = .inputExhausted) ↔
      (s.executes ∧ s.cfg.eofPolicy = .fault ∧ s.input = [] ∧ s.inputClosed = true ∧
        ∃ x, s.current = .readByte x)) ∧
    (t.runState = .faulted →
      t.faultCause = .cancelled ∨ t.faultCause = .cellRangeError ∨ t.faultCause = .inputExhausted)

/-- R30, R205: among the actions of the host only asserting reset leaves HALTED or FAULTED, and until then the fault
registers keep their values. That releasing reset there does nothing is the model's reading (log entry 13, DEDUCED).
NoStepOutsideRun states that no step leaves them either. -/
def Obligations.OnlyResetLeavesTheEnd : Prop :=
  ∀ (a : HostAction) (s t : State), (s.finished ∨ s.failed) → hostAct a s = .next t → a ≠ .assertReset →
    t.runState = s.runState ∧ SameRecord s t ∧ t.pc = s.pc ∧ t.dp = s.dp ∧ t.mem = s.mem ∧ t.output = s.output

/-! ### Reset and the host's side -/

/-- R36, R230: asserting reset enters RESET from any run state, where the block has no step, which the model answers with
a named fault of its own choice (log entry 6, DEDUCED); release sets every cell, dp, pc and the fault registers
to 0 and RUN_STATE to RUN, with nothing emitted, and keeps IMEM and PROG_LEN. -/
def Obligations.ResetAssertAndRelease : Prop :=
  (∀ s : State, ∃ t, hostAct .assertReset s = .next t ∧ t.runState = .reset ∧
    step t = .fault .noStepInReset ∧ SameProgram s t) ∧
  (∀ s : State, s.runState = .reset → s.imageWf = true →
    ∃ t, hostAct .releaseReset s = .next t ∧ (∀ a, Memory.read t.mem a = 0) ∧ t.dp = 0 ∧ t.pc = 0 ∧
      t.runState = .run ∧ t.faultCause = .none ∧ t.faultPc = 0 ∧ t.faultDp = 0 ∧ t.output = [] ∧
      SameProgram s t ∧ t.input = s.input ∧ t.inputClosed = s.inputClosed)

/-- R115: reset release refuses to start a run on an image that is not WF, and starts one that is. -/
def Obligations.ReleaseAdmitsOnlyWellFormed : Prop :=
  ∀ s : State, s.runState = .reset →
    ((∃ t, hostAct .releaseReset s = .next t) ↔ s.imageWf = true) ∧
    (s.imageWf = false → ∃ r, hostAct .releaseReset s = .refused r)

/-- R37, R232: nothing of an earlier run is visible to the next one. Two machines with the same parameters, program and
host-owned inputs are the same machine after reset is asserted and released. -/
def Obligations.RunsShareNoState : Prop :=
  ∀ s s' t t' : State, s'.cfg = s.cfg → s'.imem = s.imem → s'.progLen = s.progLen →
    s'.input = s.input → s'.inputClosed = s.inputClosed → s'.cancel = s.cancel →
    hostActs [.assertReset, .releaseReset] s = .next t → hostActs [.assertReset, .releaseReset] s' = .next t' →
    t = t'

/-- R235: the block ignores every host write to IMEM or PROG_LEN while RUN_STATE is not RESET; so IMEM and PROG_LEN
change only under reset, by no step and by no other action of the host. -/
def Obligations.HostWritesIgnoredOutsideReset : Prop :=
  ∀ (s : State), s.runState ≠ .reset →
    (∀ i w, hostAct (.writeImem i w) s = .next s) ∧
    (∀ v, hostAct (.writeStatus 4 v) s = .next s) ∧
    (∀ t, (step s = .next t ∨ ∃ a, hostAct a s = .next t) → t.imem = s.imem ∧ t.progLen = s.progLen)

/-- R33: what the host reads at the six indices, with unused high bits 0, and that a write to a read-only register is
ignored in every run state, while PROG_LEN takes a write in RESET (its 30 bits; the truncation of a wider value is the
model's choice, log entry 11). -/
def Obligations.StatusRegisters : Prop :=
  ∀ (s : State) (v : BitVec 32),
    (∃ c, s.readStatus 0 = some c ∧ (s.runState = .reset → c.toNat = 0) ∧ (s.runState = .run → c.toNat = 1) ∧
      (s.runState = .waitIn → c.toNat = 2) ∧ (s.runState = .halted → c.toNat = 3) ∧
      (s.runState = .faulted → c.toNat = 4)) ∧
    (∃ c, s.readStatus 1 = some c ∧ (s.faultCause = .none → c.toNat = 0) ∧
      (s.faultCause = .cellRangeError → c.toNat = 1) ∧ (s.faultCause = .inputExhausted → c.toNat = 2) ∧
      (s.faultCause = .cancelled → c.toNat = 3)) ∧
    (∃ c, s.readStatus 2 = some c ∧ c.toNat = s.faultPc.toNat) ∧
    (∃ c, s.readStatus 3 = some c ∧ c.toNat = s.faultDp.toNat) ∧
    (∃ c, s.readStatus 4 = some c ∧ c.toNat = s.progLen.toNat) ∧
    (∃ c, s.readStatus 5 = some c ∧ c.toNat = (if s.cfg.hasCancel then 4 else 0) +
      (match s.cfg.eofPolicy with
        | .fault => 0
        | .storeZero => 1
        | .unchanged => 2)) ∧
    (∀ k, k < 6 → k ≠ 4 → hostAct (.writeStatus k v) s = .next s) ∧
    (s.runState = .reset → v.toNat < 2 ^ 30 →
      ∃ t, hostAct (.writeStatus 4 v) s = .next t ∧ t.progLen.toNat = v.toNat ∧ t.imem = s.imem ∧ t.cfg = s.cfg)

/-! ### The loader -/

/-- R112, R113, R115: every image the loader gives is WF. -/
def Obligations.LoadedImageIsWellFormed : Prop :=
  ∀ (depth : Nat) (src : List Byte) (img : Image),
    load depth src = .ok img → imageIsWf depth img = true

/-- R113: the bracket pairs of a loaded image nest properly. -/
def Obligations.LoadedPairsNest : Prop :=
  ∀ (depth : Nat) (src : List Byte) (img : Image) (i₁ i₂ : Nat) (j₁ j₂ : Operand),
    load depth src = .ok img → i₁ < img.words.length → i₂ < img.words.length →
    imageFetch img i₁ = .jumpIfZero j₁ → imageFetch img i₂ = .jumpIfZero j₂ →
    ¬ (i₁ < i₂ ∧ i₂ < j₁.toNat ∧ j₁.toNat < j₂.toNat)

/-- R102, R116: the canonical operator form of a loaded image is its source without the comments, byte for byte; for a
source made only of operator bytes, the source itself. -/
def Obligations.CanonicalFormIsTheSource : Prop :=
  ∀ (depth : Nat) (src : List Byte) (img : Image), load depth src = .ok img →
    canonicalForm (img.words.map decode) = src.filter fun b => (operatorOf? b).isSome

/-- R103, R104: runs are maximal. No two neighbouring instructions of a loaded image are the same counted operation. -/
def Obligations.LoadedRunsAreMaximal : Prop :=
  ∀ (depth : Nat) (src : List Byte) (img : Image) (i : Nat), load depth src = .ok img →
    i + 1 < img.words.length → (imageFetch img i).opBits = (imageFetch img (i + 1)).opBits →
    (imageFetch img i).opBits.toNat ≥ 4

/-- R102: comment bytes have no effect on the output. -/
def Obligations.CommentsHaveNoEffect : Prop :=
  ∀ (depth : Nat) (src : List Byte) (img : Image),
    load depth src = .ok img ↔ load depth (src.filter fun b => (operatorOf? b).isSome) = .ok img

/-- R108, R109, R111, R117: bracket errors, at the positions that decision D14 of the spec fixes. The bytes 0x5B of `[`
and 0x5D of `]` are log entry 14 (PRESUMED, G1). The first `]` with no unmatched `[` before it fails the load at its offset;
with no such `]`, a text that ends with an unmatched `[` fails at the most recent one, after which the text is balanced;
and a balanced text fails with neither. -/
def Obligations.BracketErrors : Prop :=
  ∀ (depth : Nat) (src : List Byte),
    (∀ pos, (∀ k, k ≤ pos → (src.take k).count 0x5D#8 ≤ (src.take k).count 0x5B#8) →
      (src.take (pos + 1)).count 0x5B#8 < (src.take (pos + 1)).count 0x5D#8 →
      load depth src = .error (.unmatchedCloseBracket pos)) ∧
    ((∀ k, (src.take k).count 0x5D#8 ≤ (src.take k).count 0x5B#8) →
      src.count 0x5D#8 < src.count 0x5B#8 →
      ∃ pos, load depth src = .error (.unclosedLoop pos) ∧ src[pos]? = some 0x5B#8 ∧
        (src.drop (pos + 1)).count 0x5D#8 = (src.drop (pos + 1)).count 0x5B#8 ∧
        ∀ k, ((src.drop (pos + 1)).take k).count 0x5D#8 ≤ ((src.drop (pos + 1)).take k).count 0x5B#8) ∧
    ((∀ k, (src.take k).count 0x5D#8 ≤ (src.take k).count 0x5B#8) →
      src.count 0x5D#8 = src.count 0x5B#8 →
      ∀ pos, load depth src ≠ .error (.unmatchedCloseBracket pos) ∧ load depth src ≠ .error (.unclosedLoop pos))

/-- R104, R114: a text whose operators are k equal `<`, `>`, `+` or `-` loads to one instruction of count k, and fails
with OperandOverflow when k is 2^29 or more. -/
def Obligations.OneRunIsOneInstruction : Prop :=
  ∀ (depth k : Nat) (op : Operator) (src : List Byte), 1 ≤ depth → 1 ≤ k → collapses op = true →
    (src.filter fun b => (operatorOf? b).isSome) = List.replicate k op.byte →
    (k < 2 ^ 29 → load depth src = .ok ⟨[encode (LoadTerm.instr ⟨op, k⟩)]⟩) ∧
    (2 ^ 29 ≤ k → ∃ pos, load depth src = .error (.operandOverflow pos) ∧ src[pos]? = some op.byte ∧
      ∀ j b, j < pos → src[j]? = some b → operatorOf? b = none)

/-- R231: a text that loads always boots. From any state, the host's boot actions end in RUN with IMEM[0..N-1] and
PROG_LEN = N as the loader gave them and the tape, dp and pc at 0; and on a load error nothing is started. -/
def Obligations.LoadedProgramBoots : Prop :=
  ∀ (src : List Byte) (s : State),
    (∀ e, load s.cfg.imemDepth.val src = .error e → boot src s = .error e) ∧
    (∀ img, load s.cfg.imemDepth.val src = .ok img →
      ∃ t, boot src s = .ok (.next t) ∧ t.runState = .run ∧ t.pc = 0 ∧ t.dp = 0 ∧
        (∀ a, Memory.read t.mem a = 0) ∧ t.progLen.toNat = img.words.length ∧ t.imageWf = true ∧
        ∀ i w, img.words[i]? = some w → Imem.read t.imem i = w)
end

