-- ==== Sys2Proof/Laws/Decode.lean ====
section
/-! SUPPORT. The fields and the bytes of an instruction word (R72, R79). -/

namespace Sys2Proof

/-- A word is its op field followed by its operand field (R72). -/
theorem append_fields (w : Word) : (opField w ++ operandField w : BitVec (3 + 29)) = w := by
  apply BitVec.eq_of_getLsbD_eq
  intro i hi
  rw [BitVec.getLsbD_append]
  split
  · next h => simp [operandField, h]
  · next h =>
    have h2 : i - 29 < 3 := by omega
    have h3 : 29 + (i - 29) = i := by omega
    simp [opField, h2, h3]

/-- The op field of a word written as op and operand (R72). -/
theorem opField_append (op : BitVec 3) (x : Operand) : opField (op ++ x) = op := by
  apply BitVec.eq_of_getLsbD_eq
  intro i hi
  simp only [opField, BitVec.getLsbD_extractLsb', BitVec.getLsbD_append]
  rw [if_neg (by omega), Nat.add_sub_cancel_left, decide_eq_true hi, Bool.true_and]

/-- The operand field of a word written as op and operand (R72). -/
theorem operandField_append (op : BitVec 3) (x : Operand) : operandField (op ++ x) = x := by
  apply BitVec.eq_of_getLsbD_eq
  intro i hi
  simp only [operandField, BitVec.getLsbD_extractLsb', BitVec.getLsbD_append, Nat.zero_add]
  rw [if_pos hi, decide_eq_true hi, Bool.true_and]

/-- A word is put together again from its bytes (R53, R79). -/
theorem wordOfBytes_of_word (w : Word) :
    wordOfBytes (w.extractLsb' 0 8) (w.extractLsb' 8 8) (w.extractLsb' 16 8) (w.extractLsb' 24 8) = w := by
  apply BitVec.eq_of_getLsbD_eq
  intro i hi
  simp only [wordOfBytes, BitVec.getLsbD_append, BitVec.getLsbD_extractLsb']
  split
  · next h => simp [h]
  · split
    · next h => rw [decide_eq_true h, Bool.true_and]; congr 1; omega
    · split
      · next h => rw [decide_eq_true h, Bool.true_and]; congr 1; omega
      · rw [decide_eq_true (by omega), Bool.true_and]; congr 1; omega

end Sys2Proof
end

