-- ==== Sys2Proof/Laws/State.lean ====
section
/-! SUPPORT. One lemma per field per update of the state, each true by unfolding the update once. -/

namespace Sys2Proof.Machine


/-! ### setCell -/

@[simp] theorem State.setCell_cfg (s : State) (v : Byte) : (s.setCell v).cfg = s.cfg := rfl
@[simp] theorem State.setCell_mem (s : State) (v : Byte) : (s.setCell v).mem = Memory.write s.mem s.dp.toNat v := rfl
@[simp] theorem State.setCell_dp (s : State) (v : Byte) : (s.setCell v).dp = s.dp := rfl
@[simp] theorem State.setCell_pc (s : State) (v : Byte) : (s.setCell v).pc = s.pc := rfl
@[simp] theorem State.setCell_imem (s : State) (v : Byte) : (s.setCell v).imem = s.imem := rfl
@[simp] theorem State.setCell_progLen (s : State) (v : Byte) : (s.setCell v).progLen = s.progLen := rfl
@[simp] theorem State.setCell_runState (s : State) (v : Byte) : (s.setCell v).runState = s.runState := rfl
@[simp] theorem State.setCell_faultCause (s : State) (v : Byte) : (s.setCell v).faultCause = s.faultCause := rfl
@[simp] theorem State.setCell_faultPc (s : State) (v : Byte) : (s.setCell v).faultPc = s.faultPc := rfl
@[simp] theorem State.setCell_faultDp (s : State) (v : Byte) : (s.setCell v).faultDp = s.faultDp := rfl
@[simp] theorem State.setCell_input (s : State) (v : Byte) : (s.setCell v).input = s.input := rfl
@[simp] theorem State.setCell_inputClosed (s : State) (v : Byte) : (s.setCell v).inputClosed = s.inputClosed := rfl
@[simp] theorem State.setCell_consumed (s : State) (v : Byte) : (s.setCell v).consumed = s.consumed := rfl
@[simp] theorem State.setCell_output (s : State) (v : Byte) : (s.setCell v).output = s.output := rfl
@[simp] theorem State.setCell_cancel (s : State) (v : Byte) : (s.setCell v).cancel = s.cancel := rfl

/-! ### setDp -/

@[simp] theorem State.setDp_cfg (s : State) (d : Nat) : (s.setDp d).cfg = s.cfg := rfl
@[simp] theorem State.setDp_mem (s : State) (d : Nat) : (s.setDp d).mem = s.mem := rfl
@[simp] theorem State.setDp_dp (s : State) (d : Nat) : (s.setDp d).dp = BitVec.ofNat 15 d := rfl
@[simp] theorem State.setDp_pc (s : State) (d : Nat) : (s.setDp d).pc = s.pc := rfl
@[simp] theorem State.setDp_imem (s : State) (d : Nat) : (s.setDp d).imem = s.imem := rfl
@[simp] theorem State.setDp_progLen (s : State) (d : Nat) : (s.setDp d).progLen = s.progLen := rfl
@[simp] theorem State.setDp_runState (s : State) (d : Nat) : (s.setDp d).runState = s.runState := rfl
@[simp] theorem State.setDp_faultCause (s : State) (d : Nat) : (s.setDp d).faultCause = s.faultCause := rfl
@[simp] theorem State.setDp_faultPc (s : State) (d : Nat) : (s.setDp d).faultPc = s.faultPc := rfl
@[simp] theorem State.setDp_faultDp (s : State) (d : Nat) : (s.setDp d).faultDp = s.faultDp := rfl
@[simp] theorem State.setDp_input (s : State) (d : Nat) : (s.setDp d).input = s.input := rfl
@[simp] theorem State.setDp_inputClosed (s : State) (d : Nat) : (s.setDp d).inputClosed = s.inputClosed := rfl
@[simp] theorem State.setDp_consumed (s : State) (d : Nat) : (s.setDp d).consumed = s.consumed := rfl
@[simp] theorem State.setDp_output (s : State) (d : Nat) : (s.setDp d).output = s.output := rfl
@[simp] theorem State.setDp_cancel (s : State) (d : Nat) : (s.setDp d).cancel = s.cancel := rfl

/-! ### retire -/

@[simp] theorem State.retire_cfg (s : State) (p : Pc) : (s.retire p).cfg = s.cfg := rfl
@[simp] theorem State.retire_mem (s : State) (p : Pc) : (s.retire p).mem = s.mem := rfl
@[simp] theorem State.retire_dp (s : State) (p : Pc) : (s.retire p).dp = s.dp := rfl
@[simp] theorem State.retire_pc (s : State) (p : Pc) : (s.retire p).pc = p + 1 := rfl
@[simp] theorem State.retire_imem (s : State) (p : Pc) : (s.retire p).imem = s.imem := rfl
@[simp] theorem State.retire_progLen (s : State) (p : Pc) : (s.retire p).progLen = s.progLen := rfl
@[simp] theorem State.retire_runState (s : State) (p : Pc) : (s.retire p).runState = .run := rfl
@[simp] theorem State.retire_faultCause (s : State) (p : Pc) : (s.retire p).faultCause = s.faultCause := rfl
@[simp] theorem State.retire_faultPc (s : State) (p : Pc) : (s.retire p).faultPc = s.faultPc := rfl
@[simp] theorem State.retire_faultDp (s : State) (p : Pc) : (s.retire p).faultDp = s.faultDp := rfl
@[simp] theorem State.retire_input (s : State) (p : Pc) : (s.retire p).input = s.input := rfl
@[simp] theorem State.retire_inputClosed (s : State) (p : Pc) : (s.retire p).inputClosed = s.inputClosed := rfl
@[simp] theorem State.retire_consumed (s : State) (p : Pc) : (s.retire p).consumed = s.consumed := rfl
@[simp] theorem State.retire_output (s : State) (p : Pc) : (s.retire p).output = s.output := rfl
@[simp] theorem State.retire_cancel (s : State) (p : Pc) : (s.retire p).cancel = s.cancel := rfl

/-! ### wait -/

@[simp] theorem State.wait_cfg (s : State) : (s.wait).cfg = s.cfg := rfl
@[simp] theorem State.wait_mem (s : State) : (s.wait).mem = s.mem := rfl
@[simp] theorem State.wait_dp (s : State) : (s.wait).dp = s.dp := rfl
@[simp] theorem State.wait_pc (s : State) : (s.wait).pc = s.pc := rfl
@[simp] theorem State.wait_imem (s : State) : (s.wait).imem = s.imem := rfl
@[simp] theorem State.wait_progLen (s : State) : (s.wait).progLen = s.progLen := rfl
@[simp] theorem State.wait_runState (s : State) : (s.wait).runState = .waitIn := rfl
@[simp] theorem State.wait_faultCause (s : State) : (s.wait).faultCause = s.faultCause := rfl
@[simp] theorem State.wait_faultPc (s : State) : (s.wait).faultPc = s.faultPc := rfl
@[simp] theorem State.wait_faultDp (s : State) : (s.wait).faultDp = s.faultDp := rfl
@[simp] theorem State.wait_input (s : State) : (s.wait).input = s.input := rfl
@[simp] theorem State.wait_inputClosed (s : State) : (s.wait).inputClosed = s.inputClosed := rfl
@[simp] theorem State.wait_consumed (s : State) : (s.wait).consumed = s.consumed := rfl
@[simp] theorem State.wait_output (s : State) : (s.wait).output = s.output := rfl
@[simp] theorem State.wait_cancel (s : State) : (s.wait).cancel = s.cancel := rfl

/-! ### halt -/

@[simp] theorem State.halt_cfg (s : State) : (s.halt).cfg = s.cfg := rfl
@[simp] theorem State.halt_mem (s : State) : (s.halt).mem = s.mem := rfl
@[simp] theorem State.halt_dp (s : State) : (s.halt).dp = s.dp := rfl
@[simp] theorem State.halt_pc (s : State) : (s.halt).pc = s.pc := rfl
@[simp] theorem State.halt_imem (s : State) : (s.halt).imem = s.imem := rfl
@[simp] theorem State.halt_progLen (s : State) : (s.halt).progLen = s.progLen := rfl
@[simp] theorem State.halt_runState (s : State) : (s.halt).runState = .halted := rfl
@[simp] theorem State.halt_faultCause (s : State) : (s.halt).faultCause = s.faultCause := rfl
@[simp] theorem State.halt_faultPc (s : State) : (s.halt).faultPc = s.faultPc := rfl
@[simp] theorem State.halt_faultDp (s : State) : (s.halt).faultDp = s.faultDp := rfl
@[simp] theorem State.halt_input (s : State) : (s.halt).input = s.input := rfl
@[simp] theorem State.halt_inputClosed (s : State) : (s.halt).inputClosed = s.inputClosed := rfl
@[simp] theorem State.halt_consumed (s : State) : (s.halt).consumed = s.consumed := rfl
@[simp] theorem State.halt_output (s : State) : (s.halt).output = s.output := rfl
@[simp] theorem State.halt_cancel (s : State) : (s.halt).cancel = s.cancel := rfl

/-! ### enterFault -/

@[simp] theorem State.enterFault_cfg (s : State) (c : FaultCause) (p : Pc) (d : Dp) : (s.enterFault c p d).cfg = s.cfg := rfl
@[simp] theorem State.enterFault_mem (s : State) (c : FaultCause) (p : Pc) (d : Dp) : (s.enterFault c p d).mem = s.mem := rfl
@[simp] theorem State.enterFault_dp (s : State) (c : FaultCause) (p : Pc) (d : Dp) : (s.enterFault c p d).dp = s.dp := rfl
@[simp] theorem State.enterFault_pc (s : State) (c : FaultCause) (p : Pc) (d : Dp) : (s.enterFault c p d).pc = s.pc := rfl
@[simp] theorem State.enterFault_imem (s : State) (c : FaultCause) (p : Pc) (d : Dp) : (s.enterFault c p d).imem = s.imem := rfl
@[simp] theorem State.enterFault_progLen (s : State) (c : FaultCause) (p : Pc) (d : Dp) : (s.enterFault c p d).progLen = s.progLen := rfl
@[simp] theorem State.enterFault_runState (s : State) (c : FaultCause) (p : Pc) (d : Dp) : (s.enterFault c p d).runState = .faulted := rfl
@[simp] theorem State.enterFault_faultCause (s : State) (c : FaultCause) (p : Pc) (d : Dp) : (s.enterFault c p d).faultCause = c := rfl
@[simp] theorem State.enterFault_faultPc (s : State) (c : FaultCause) (p : Pc) (d : Dp) : (s.enterFault c p d).faultPc = p := rfl
@[simp] theorem State.enterFault_faultDp (s : State) (c : FaultCause) (p : Pc) (d : Dp) : (s.enterFault c p d).faultDp = d := rfl
@[simp] theorem State.enterFault_input (s : State) (c : FaultCause) (p : Pc) (d : Dp) : (s.enterFault c p d).input = s.input := rfl
@[simp] theorem State.enterFault_inputClosed (s : State) (c : FaultCause) (p : Pc) (d : Dp) : (s.enterFault c p d).inputClosed = s.inputClosed := rfl
@[simp] theorem State.enterFault_consumed (s : State) (c : FaultCause) (p : Pc) (d : Dp) : (s.enterFault c p d).consumed = s.consumed := rfl
@[simp] theorem State.enterFault_output (s : State) (c : FaultCause) (p : Pc) (d : Dp) : (s.enterFault c p d).output = s.output := rfl
@[simp] theorem State.enterFault_cancel (s : State) (c : FaultCause) (p : Pc) (d : Dp) : (s.enterFault c p d).cancel = s.cancel := rfl

/-! ### takeInput -/

@[simp] theorem State.takeInput_cfg (s : State) : (s.takeInput).cfg = s.cfg := rfl
@[simp] theorem State.takeInput_mem (s : State) : (s.takeInput).mem = s.mem := rfl
@[simp] theorem State.takeInput_dp (s : State) : (s.takeInput).dp = s.dp := rfl
@[simp] theorem State.takeInput_pc (s : State) : (s.takeInput).pc = s.pc := rfl
@[simp] theorem State.takeInput_imem (s : State) : (s.takeInput).imem = s.imem := rfl
@[simp] theorem State.takeInput_progLen (s : State) : (s.takeInput).progLen = s.progLen := rfl
@[simp] theorem State.takeInput_runState (s : State) : (s.takeInput).runState = s.runState := rfl
@[simp] theorem State.takeInput_faultCause (s : State) : (s.takeInput).faultCause = s.faultCause := rfl
@[simp] theorem State.takeInput_faultPc (s : State) : (s.takeInput).faultPc = s.faultPc := rfl
@[simp] theorem State.takeInput_faultDp (s : State) : (s.takeInput).faultDp = s.faultDp := rfl
@[simp] theorem State.takeInput_input (s : State) : (s.takeInput).input = s.input.drop 1 := rfl
@[simp] theorem State.takeInput_inputClosed (s : State) : (s.takeInput).inputClosed = s.inputClosed := rfl
@[simp] theorem State.takeInput_consumed (s : State) : (s.takeInput).consumed = s.consumed ++ s.input.take 1 := rfl
@[simp] theorem State.takeInput_output (s : State) : (s.takeInput).output = s.output := rfl
@[simp] theorem State.takeInput_cancel (s : State) : (s.takeInput).cancel = s.cancel := rfl

/-! ### outWrite -/

@[simp] theorem State.outWrite_cfg (s : State) (b : Byte) : (s.outWrite b).cfg = s.cfg := rfl
@[simp] theorem State.outWrite_mem (s : State) (b : Byte) : (s.outWrite b).mem = s.mem := rfl
@[simp] theorem State.outWrite_dp (s : State) (b : Byte) : (s.outWrite b).dp = s.dp := rfl
@[simp] theorem State.outWrite_pc (s : State) (b : Byte) : (s.outWrite b).pc = s.pc := rfl
@[simp] theorem State.outWrite_imem (s : State) (b : Byte) : (s.outWrite b).imem = s.imem := rfl
@[simp] theorem State.outWrite_progLen (s : State) (b : Byte) : (s.outWrite b).progLen = s.progLen := rfl
@[simp] theorem State.outWrite_runState (s : State) (b : Byte) : (s.outWrite b).runState = s.runState := rfl
@[simp] theorem State.outWrite_faultCause (s : State) (b : Byte) : (s.outWrite b).faultCause = s.faultCause := rfl
@[simp] theorem State.outWrite_faultPc (s : State) (b : Byte) : (s.outWrite b).faultPc = s.faultPc := rfl
@[simp] theorem State.outWrite_faultDp (s : State) (b : Byte) : (s.outWrite b).faultDp = s.faultDp := rfl
@[simp] theorem State.outWrite_input (s : State) (b : Byte) : (s.outWrite b).input = s.input := rfl
@[simp] theorem State.outWrite_inputClosed (s : State) (b : Byte) : (s.outWrite b).inputClosed = s.inputClosed := rfl
@[simp] theorem State.outWrite_consumed (s : State) (b : Byte) : (s.outWrite b).consumed = s.consumed := rfl
@[simp] theorem State.outWrite_output (s : State) (b : Byte) : (s.outWrite b).output = s.output ++ [b] := rfl
@[simp] theorem State.outWrite_cancel (s : State) (b : Byte) : (s.outWrite b).cancel = s.cancel := rfl

/-! ### assertReset -/

@[simp] theorem State.assertReset_cfg (s : State) : (s.assertReset).cfg = s.cfg := rfl
@[simp] theorem State.assertReset_mem (s : State) : (s.assertReset).mem = s.mem := rfl
@[simp] theorem State.assertReset_dp (s : State) : (s.assertReset).dp = s.dp := rfl
@[simp] theorem State.assertReset_pc (s : State) : (s.assertReset).pc = s.pc := rfl
@[simp] theorem State.assertReset_imem (s : State) : (s.assertReset).imem = s.imem := rfl
@[simp] theorem State.assertReset_progLen (s : State) : (s.assertReset).progLen = s.progLen := rfl
@[simp] theorem State.assertReset_runState (s : State) : (s.assertReset).runState = .reset := rfl
@[simp] theorem State.assertReset_faultCause (s : State) : (s.assertReset).faultCause = .none := rfl
@[simp] theorem State.assertReset_faultPc (s : State) : (s.assertReset).faultPc = 0 := rfl
@[simp] theorem State.assertReset_faultDp (s : State) : (s.assertReset).faultDp = 0 := rfl
@[simp] theorem State.assertReset_input (s : State) : (s.assertReset).input = s.input := rfl
@[simp] theorem State.assertReset_inputClosed (s : State) : (s.assertReset).inputClosed = s.inputClosed := rfl
@[simp] theorem State.assertReset_consumed (s : State) : (s.assertReset).consumed = s.consumed := rfl
@[simp] theorem State.assertReset_output (s : State) : (s.assertReset).output = s.output := rfl
@[simp] theorem State.assertReset_cancel (s : State) : (s.assertReset).cancel = s.cancel := rfl

/-! ### freshRun -/

@[simp] theorem State.freshRun_cfg (s : State) : (s.freshRun).cfg = s.cfg := rfl
@[simp] theorem State.freshRun_mem (s : State) : (s.freshRun).mem = [] := rfl
@[simp] theorem State.freshRun_dp (s : State) : (s.freshRun).dp = 0 := rfl
@[simp] theorem State.freshRun_pc (s : State) : (s.freshRun).pc = 0 := rfl
@[simp] theorem State.freshRun_imem (s : State) : (s.freshRun).imem = s.imem := rfl
@[simp] theorem State.freshRun_progLen (s : State) : (s.freshRun).progLen = s.progLen := rfl
@[simp] theorem State.freshRun_runState (s : State) : (s.freshRun).runState = .run := rfl
@[simp] theorem State.freshRun_faultCause (s : State) : (s.freshRun).faultCause = .none := rfl
@[simp] theorem State.freshRun_faultPc (s : State) : (s.freshRun).faultPc = 0 := rfl
@[simp] theorem State.freshRun_faultDp (s : State) : (s.freshRun).faultDp = 0 := rfl
@[simp] theorem State.freshRun_input (s : State) : (s.freshRun).input = s.input := rfl
@[simp] theorem State.freshRun_inputClosed (s : State) : (s.freshRun).inputClosed = s.inputClosed := rfl
@[simp] theorem State.freshRun_consumed (s : State) : (s.freshRun).consumed = [] := rfl
@[simp] theorem State.freshRun_output (s : State) : (s.freshRun).output = [] := rfl
@[simp] theorem State.freshRun_cancel (s : State) : (s.freshRun).cancel = s.cancel := rfl

/-! ### closeInput -/

@[simp] theorem State.closeInput_cfg (s : State) : (s.closeInput).cfg = s.cfg := rfl
@[simp] theorem State.closeInput_mem (s : State) : (s.closeInput).mem = s.mem := rfl
@[simp] theorem State.closeInput_dp (s : State) : (s.closeInput).dp = s.dp := rfl
@[simp] theorem State.closeInput_pc (s : State) : (s.closeInput).pc = s.pc := rfl
@[simp] theorem State.closeInput_imem (s : State) : (s.closeInput).imem = s.imem := rfl
@[simp] theorem State.closeInput_progLen (s : State) : (s.closeInput).progLen = s.progLen := rfl
@[simp] theorem State.closeInput_runState (s : State) : (s.closeInput).runState = s.runState := rfl
@[simp] theorem State.closeInput_faultCause (s : State) : (s.closeInput).faultCause = s.faultCause := rfl
@[simp] theorem State.closeInput_faultPc (s : State) : (s.closeInput).faultPc = s.faultPc := rfl
@[simp] theorem State.closeInput_faultDp (s : State) : (s.closeInput).faultDp = s.faultDp := rfl
@[simp] theorem State.closeInput_input (s : State) : (s.closeInput).input = s.input := rfl
@[simp] theorem State.closeInput_inputClosed (s : State) : (s.closeInput).inputClosed = true := rfl
@[simp] theorem State.closeInput_consumed (s : State) : (s.closeInput).consumed = s.consumed := rfl
@[simp] theorem State.closeInput_output (s : State) : (s.closeInput).output = s.output := rfl
@[simp] theorem State.closeInput_cancel (s : State) : (s.closeInput).cancel = s.cancel := rfl

end Sys2Proof.Machine
end

