-- ==== Sys2Proof/Laws/Store.lean ====
section
/-! SUPPORT. The laws of the sparse store, and of the tape and instruction memory built from it. -/

namespace Sys2Proof.Machine

section Store

variable {α : Type} (d : α)

@[simp] theorem Store.read_nil (a : Nat) : Store.read d ([] : List (Nat × α)) a = d := rfl

theorem Store.read_cons (k : Nat) (x : α) (l : List (Nat × α)) (a : Nat) :
    Store.read d ((k, x) :: l) a = if k = a then x else Store.read d l a := rfl

variable [DecidableEq α]

/-- A write leaves every other index as it was. -/
theorem Store.read_write_ne (l : List (Nat × α)) {a b : Nat} (v : α) (h : b ≠ a) :
    Store.read d (Store.write d l a v) b = Store.read d l b := by
  induction l with
  | nil =>
    unfold Store.write
    split
    · rfl
    · simp [Store.read_cons, Ne.symm h]
  | cons e l ih =>
    obtain ⟨k, x⟩ := e
    unfold Store.write
    split
    · split
      · rfl
      · simp [Store.read_cons, Ne.symm h]
    · split
      · subst_vars
        split <;> simp [Store.read_cons, Ne.symm h]
      · simp [Store.read_cons, ih]

/-- Below the first index of a canonical store nothing is listed. -/
theorem Store.read_below {bound lo : Nat} {l : List (Nat × α)} (h : Store.wfFrom d bound lo l = true)
    {a : Nat} (ha : a < lo) : Store.read d l a = d := by
  induction l generalizing lo with
  | nil => rfl
  | cons e l ih =>
    obtain ⟨k, x⟩ := e
    simp only [Store.wfFrom, Bool.and_eq_true, decide_eq_true_eq] at h
    rw [Store.read_cons, if_neg (by omega)]
    exact ih h.2 (by omega)

/-- A read after a write to the same index gives the value written. -/
theorem Store.read_write_self {bound lo : Nat} {l : List (Nat × α)} (h : Store.wfFrom d bound lo l = true)
    (a : Nat) (v : α) : Store.read d (Store.write d l a v) a = v := by
  induction l generalizing lo with
  | nil =>
    unfold Store.write
    split
    · next hv => simp [hv]
    · simp [Store.read_cons]
  | cons e l ih =>
    obtain ⟨k, x⟩ := e
    simp only [Store.wfFrom, Bool.and_eq_true, decide_eq_true_eq] at h
    obtain ⟨⟨⟨_, _⟩, _⟩, hl⟩ := h
    unfold Store.write
    split
    · split
      · next hv =>
        rw [Store.read_cons, if_neg (by omega), Store.read_below d hl (by omega), hv]
      · simp [Store.read_cons]
    · split
      · next ha =>
        split
        · next hv => rw [Store.read_below d hl (by omega), hv]
        · simp [Store.read_cons, ha]
      · next ha => rw [Store.read_cons, if_neg (Ne.symm ha), ih hl]

/-- Writing a value other than the default reads back whatever the store was. -/
theorem Store.read_write_self_of_ne (l : List (Nat × α)) (a : Nat) {v : α} (hv : v ≠ d) :
    Store.read d (Store.write d l a v) a = v := by
  induction l with
  | nil => simp [Store.write, hv, Store.read_cons]
  | cons e l ih =>
    obtain ⟨k, x⟩ := e
    unfold Store.write
    split
    · simp [Store.read_cons]
    · split
      · next ha => simp [Store.read_cons, ha]
      · next ha => rw [Store.read_cons, if_neg (Ne.symm ha), ih]

theorem Store.wfFrom_mono {bound lo lo' : Nat} {l : List (Nat × α)} (hlo : lo' ≤ lo)
    (h : Store.wfFrom d bound lo l = true) : Store.wfFrom d bound lo' l = true := by
  cases l with
  | nil => rfl
  | cons e l =>
    simp only [Store.wfFrom, Bool.and_eq_true, decide_eq_true_eq] at h ⊢
    exact ⟨⟨⟨by omega, h.1.1.2⟩, h.1.2⟩, h.2⟩

/-- A write below the bound keeps the canonical form. -/
theorem Store.wfFrom_write {bound lo : Nat} {l : List (Nat × α)} (h : Store.wfFrom d bound lo l = true)
    {a : Nat} (hlo : lo ≤ a) (ha : a < bound) (v : α) :
    Store.wfFrom d bound lo (Store.write d l a v) = true := by
  induction l generalizing lo with
  | nil =>
    unfold Store.write
    split
    · rfl
    · next hv => simp [Store.wfFrom, hlo, ha, hv]
  | cons e l ih =>
    obtain ⟨k, x⟩ := e
    have hw := h
    simp only [Store.wfFrom, Bool.and_eq_true, decide_eq_true_eq] at h
    obtain ⟨⟨⟨h1, h2⟩, h3⟩, hl⟩ := h
    unfold Store.write
    split
    · next hak =>
      split
      · exact hw
      · next hv =>
        simp only [Store.wfFrom, Bool.and_eq_true, decide_eq_true_eq]
        exact ⟨⟨⟨hlo, ha⟩, hv⟩, ⟨⟨by omega, h2⟩, h3⟩, hl⟩
    · split
      · split
        · exact Store.wfFrom_mono d (by omega) hl
        · next hv =>
          simp only [Store.wfFrom, Bool.and_eq_true, decide_eq_true_eq]
          exact ⟨⟨⟨h1, h2⟩, hv⟩, hl⟩
      · simp only [Store.wfFrom, Bool.and_eq_true, decide_eq_true_eq]
        exact ⟨⟨⟨h1, h2⟩, h3⟩, ih hl (by omega)⟩

theorem Store.wf_write {bound : Nat} {l : List (Nat × α)} (h : Store.wf d bound l = true)
    {a : Nat} (ha : a < bound) (v : α) : Store.wf d bound (Store.write d l a v) = true :=
  Store.wfFrom_write d h (Nat.zero_le a) ha v

end Store

/-! ### The tape -/

@[simp] theorem Memory.wf_nil : Memory.wf [] = true := rfl

@[simp] theorem Memory.read_nil (a : Nat) : Memory.read [] a = 0 := rfl

theorem Memory.wf_write {m : Memory} (h : Memory.wf m = true) {a : Nat} (ha : a < cells) (v : Byte) :
    Memory.wf (Memory.write m a v) = true :=
  Store.wf_write 0 h ha v

theorem Memory.read_write_self {m : Memory} (h : Memory.wf m = true) (a : Nat) (v : Byte) :
    Memory.read (Memory.write m a v) a = v :=
  Store.read_write_self 0 h a v

theorem Memory.read_write_ne (m : Memory) {a b : Nat} (v : Byte) (h : b ≠ a) :
    Memory.read (Memory.write m a v) b = Memory.read m b :=
  Store.read_write_ne 0 m v h

/-! ### Instruction memory -/

@[simp] theorem Imem.wf_nil (depth : Nat) : Imem.wf depth [] = true := rfl

@[simp] theorem Imem.read_nil (i : Nat) : Imem.read [] i = 0 := rfl

theorem Imem.wf_write {depth : Nat} {m : Imem} (h : Imem.wf depth m = true) {i : Nat} (hi : i < depth)
    (w : Word) : Imem.wf depth (Imem.write m i w) = true :=
  Store.wf_write 0 h hi w

theorem Imem.read_write_self {depth : Nat} {m : Imem} (h : Imem.wf depth m = true) (i : Nat) (w : Word) :
    Imem.read (Imem.write m i w) i = w :=
  Store.read_write_self 0 h i w

theorem Imem.read_write_self_of_ne (m : Imem) (i : Nat) {w : Word} (hw : w ≠ 0) :
    Imem.read (Imem.write m i w) i = w :=
  Store.read_write_self_of_ne 0 m i hw

theorem Imem.read_write_ne (m : Imem) {i j : Nat} (w : Word) (h : j ≠ i) :
    Imem.read (Imem.write m i w) j = Imem.read m j :=
  Store.read_write_ne 0 m w h

end Sys2Proof.Machine
end

