-- ==== Sys2Proof/Laws/Exec.lean ====
section
/-! SUPPORT. One lemma per shared operation, and one per instruction: everything it can do. -/

namespace Sys2Proof.Machine

/-- The cell operand, where dp names a cell. -/
theorem State.withCell_of_lt {s : State} {k : Byte → Outcome} (h : s.dp.toNat < cells) :
    s.withCell k = k s.cell := if_pos h

/-- The cell operand, where dp names none. -/
theorem State.withCell_of_ge {s : State} {k : Byte → Outcome} (h : cells ≤ s.dp.toNat) :
    s.withCell k = .fault .cellAbsent := if_neg (by omega)

/-- An answer through the cell operand comes from a cell that exists. -/
theorem State.withCell_eq_next {s t : State} {k : Byte → Outcome} (h : s.withCell k = .next t) :
    s.dp.toNat < cells ∧ k s.cell = .next t := by
  unfold State.withCell at h
  split at h
  · exact ⟨‹_›, h⟩
  · cases h

theorem State.inRead_cons {s : State} {b : Byte} {rest : List Byte} (h : s.input = b :: rest) :
    s.inRead = .byte b := by
  simp [State.inRead, h]

theorem State.inRead_closed {s : State} (h : s.input = []) (hc : s.inputClosed = true) : s.inRead = .eof := by
  simp [State.inRead, h, hc]

theorem State.inRead_open {s : State} (h : s.input = []) (hc : s.inputClosed = false) :
    s.inRead = .noneYet := by
  simp [State.inRead, h, hc]

/-- The next index, on exact numbers, below the largest value of pc. -/
theorem pc_succ_toNat {p : Pc} (h : p.toNat + 1 < 2 ^ 30) : (p + 1).toNat = p.toNat + 1 := by
  have h1 : (1 : Pc).toNat = 1 := rfl
  rw [BitVec.toNat_add, h1]
  omega

theorem targetOf_toNat (t : Operand) : (targetOf t).toNat = t.toNat := by
  have := t.isLt
  simp only [targetOf, BitVec.toNat_setWidth]
  omega

theorem targetOf_succ_toNat (t : Operand) : (targetOf t + 1).toNat = t.toNat + 1 := by
  have := t.isLt
  rw [pc_succ_toNat (by rw [targetOf_toNat]; omega), targetOf_toNat]

theorem addMod_toNat (v : Byte) (n : Nat) : (addMod v n).toNat = (v.toNat + n) % 256 := by
  simp only [addMod, BitVec.toNat_ofNat]
  omega

theorem subMod_toNat (v : Byte) (n : Nat) : (subMod v n).toNat = (v.toNat + 256 - n % 256) % 256 := by
  simp only [subMod, BitVec.toNat_ofNat]
  omega

theorem isZero_of_eq {v : Byte} (h : v = 0) : isZero v = true := decide_eq_true h

theorem isZero_of_ne {v : Byte} (h : v ≠ 0) : isZero v = false := decide_eq_false h

/-! ### What each instruction can do -/

theorem execMoveLeft_cases {n : Operand} {s t : State} (h : execMoveLeft n s = .next t) :
    (s.dp.toNat < n.toNat ∧ t = s.enterFault .cellRangeError s.pc s.dp) ∨
    (n.toNat ≤ s.dp.toNat ∧ t = (s.setDp (s.dp.toNat - n.toNat)).retire s.pc) := by
  unfold execMoveLeft at h
  split at h <;> cases h
  · exact .inl ⟨‹_›, rfl⟩
  · exact .inr ⟨Nat.le_of_not_lt ‹_›, rfl⟩

theorem execMoveRight_cases {n : Operand} {s t : State} (h : execMoveRight n s = .next t) :
    (cells ≤ s.dp.toNat + n.toNat ∧ t = s.enterFault .cellRangeError s.pc s.dp) ∨
    (s.dp.toNat + n.toNat < cells ∧ t = (s.setDp (s.dp.toNat + n.toNat)).retire s.pc) := by
  unfold execMoveRight at h
  split at h <;> cases h
  · exact .inl ⟨‹_›, rfl⟩
  · exact .inr ⟨Nat.lt_of_not_le ‹_›, rfl⟩

theorem execIncrement_cases {n : Operand} {s t : State} (h : execIncrement n s = .next t) :
    s.dp.toNat < cells ∧ t = (s.setCell (addMod s.cell n.toNat)).retire s.pc := by
  obtain ⟨hd, h⟩ := State.withCell_eq_next h
  cases h
  exact ⟨hd, rfl⟩

theorem execDecrement_cases {n : Operand} {s t : State} (h : execDecrement n s = .next t) :
    s.dp.toNat < cells ∧ t = (s.setCell (subMod s.cell n.toNat)).retire s.pc := by
  obtain ⟨hd, h⟩ := State.withCell_eq_next h
  cases h
  exact ⟨hd, rfl⟩

theorem execReadByte_cases {x : Operand} {s t : State} (h : execReadByte x s = .next t) :
    (s.input = [] ∧ s.inputClosed = false ∧ t = s.wait) ∨
    (∃ b rest, s.input = b :: rest ∧ s.dp.toNat < cells ∧ t = (s.takeInput.setCell b).retire s.pc) ∨
    (s.input = [] ∧ s.inputClosed = true ∧
      ((s.cfg.eofPolicy = .fault ∧ t = s.enterFault .inputExhausted s.pc s.dp) ∨
       (s.cfg.eofPolicy = .storeZero ∧ s.dp.toNat < cells ∧ t = (s.setCell 0).retire s.pc) ∨
       (s.cfg.eofPolicy = .unchanged ∧ t = s.retire s.pc))) := by
  unfold execReadByte at h
  cases hi : s.input with
  | cons b rest =>
    rw [State.inRead_cons hi] at h
    obtain ⟨hd, h⟩ := State.withCell_eq_next h
    cases h
    exact .inr (.inl ⟨b, rest, rfl, hd, rfl⟩)
  | nil =>
    cases hc : s.inputClosed with
    | false =>
      rw [State.inRead_open hi hc] at h
      cases h
      exact .inl ⟨rfl, rfl, rfl⟩
    | true =>
      rw [State.inRead_closed hi hc] at h
      refine .inr (.inr ⟨rfl, rfl, ?_⟩)
      simp only [State.atEof] at h
      cases hp : s.cfg.eofPolicy with
      | fault =>
        rw [hp] at h
        cases h
        exact .inl ⟨rfl, rfl⟩
      | storeZero =>
        rw [hp] at h
        obtain ⟨hd, h⟩ := State.withCell_eq_next h
        cases h
        exact .inr (.inl ⟨rfl, hd, rfl⟩)
      | unchanged =>
        rw [hp] at h
        cases h
        exact .inr (.inr ⟨rfl, rfl⟩)

theorem execWriteByte_cases {x : Operand} {s t : State} (h : execWriteByte x s = .next t) :
    s.dp.toNat < cells ∧ t = (s.outWrite s.cell).retire s.pc := by
  obtain ⟨hd, h⟩ := State.withCell_eq_next h
  cases h
  exact ⟨hd, rfl⟩

theorem execJumpIfZero_cases {u : Operand} {s t : State} (h : execJumpIfZero u s = .next t) :
    s.dp.toNat < cells ∧
      ((s.cell = 0 ∧ t = s.retire (targetOf u)) ∨ (s.cell ≠ 0 ∧ t = s.retire s.pc)) := by
  obtain ⟨hd, h⟩ := State.withCell_eq_next h
  refine ⟨hd, ?_⟩
  cases h
  by_cases hz : s.cell = 0
  · exact .inl ⟨hz, by rw [isZero_of_eq hz, if_pos rfl]⟩
  · exact .inr ⟨hz, by rw [isZero_of_ne hz, if_neg Bool.false_ne_true]⟩

theorem execJumpIfNonZero_cases {u : Operand} {s t : State} (h : execJumpIfNonZero u s = .next t) :
    s.dp.toNat < cells ∧
      ((s.cell ≠ 0 ∧ t = s.retire (targetOf u)) ∨ (s.cell = 0 ∧ t = s.retire s.pc)) := by
  obtain ⟨hd, h⟩ := State.withCell_eq_next h
  refine ⟨hd, ?_⟩
  cases h
  by_cases hz : s.cell = 0
  · exact .inr ⟨hz, by rw [isZero_of_eq hz, if_pos rfl]⟩
  · exact .inl ⟨hz, by rw [isZero_of_ne hz, if_neg Bool.false_ne_true]⟩

/-! ### What an instruction can do, in one place -/

/-- `Effect s i t`: the instruction `i` takes `s` to `t`, by one of the ways the rules of 42_cursor.md to 45_jumps.md
give it. -/
inductive Effect (s : State) : Instr → State → Prop where
  | leftOut (n : Operand) (h : s.dp.toNat < n.toNat) :
      Effect s (.moveLeft n) (s.enterFault .cellRangeError s.pc s.dp)
  | left (n : Operand) (h : n.toNat ≤ s.dp.toNat) :
      Effect s (.moveLeft n) ((s.setDp (s.dp.toNat - n.toNat)).retire s.pc)
  | rightOut (n : Operand) (h : cells ≤ s.dp.toNat + n.toNat) :
      Effect s (.moveRight n) (s.enterFault .cellRangeError s.pc s.dp)
  | right (n : Operand) (h : s.dp.toNat + n.toNat < cells) :
      Effect s (.moveRight n) ((s.setDp (s.dp.toNat + n.toNat)).retire s.pc)
  | inc (n : Operand) (hd : s.dp.toNat < cells) :
      Effect s (.increment n) ((s.setCell (addMod s.cell n.toNat)).retire s.pc)
  | dec (n : Operand) (hd : s.dp.toNat < cells) :
      Effect s (.decrement n) ((s.setCell (subMod s.cell n.toNat)).retire s.pc)
  | readWait (x : Operand) (hi : s.input = []) (hc : s.inputClosed = false) :
      Effect s (.readByte x) s.wait
  | readTake (x : Operand) (b : Byte) (rest : List Byte) (hi : s.input = b :: rest) (hd : s.dp.toNat < cells) :
      Effect s (.readByte x) ((s.takeInput.setCell b).retire s.pc)
  | readFault (x : Operand) (hi : s.input = []) (hc : s.inputClosed = true) (hp : s.cfg.eofPolicy = .fault) :
      Effect s (.readByte x) (s.enterFault .inputExhausted s.pc s.dp)
  | readZero (x : Operand) (hi : s.input = []) (hc : s.inputClosed = true) (hp : s.cfg.eofPolicy = .storeZero)
      (hd : s.dp.toNat < cells) : Effect s (.readByte x) ((s.setCell 0).retire s.pc)
  | readKeep (x : Operand) (hi : s.input = []) (hc : s.inputClosed = true) (hp : s.cfg.eofPolicy = .unchanged) :
      Effect s (.readByte x) (s.retire s.pc)
  | write (x : Operand) (hd : s.dp.toNat < cells) : Effect s (.writeByte x) ((s.outWrite s.cell).retire s.pc)
  | zeroTaken (u : Operand) (hd : s.dp.toNat < cells) (hz : s.cell = 0) :
      Effect s (.jumpIfZero u) (s.retire (targetOf u))
  | zeroThrough (u : Operand) (hd : s.dp.toNat < cells) (hz : s.cell ≠ 0) :
      Effect s (.jumpIfZero u) (s.retire s.pc)
  | nonZeroTaken (u : Operand) (hd : s.dp.toNat < cells) (hz : s.cell ≠ 0) :
      Effect s (.jumpIfNonZero u) (s.retire (targetOf u))
  | nonZeroThrough (u : Operand) (hd : s.dp.toNat < cells) (hz : s.cell = 0) :
      Effect s (.jumpIfNonZero u) (s.retire s.pc)

/-- Every next state of an instruction comes by one of its effects. -/
theorem exec_effect {i : Instr} {s t : State} (h : exec i s = .next t) : Effect s i t := by
  cases i with
  | moveLeft n =>
    obtain ⟨hn, rfl⟩ | ⟨hn, rfl⟩ := execMoveLeft_cases h
    · exact .leftOut n hn
    · exact .left n hn
  | moveRight n =>
    obtain ⟨hn, rfl⟩ | ⟨hn, rfl⟩ := execMoveRight_cases h
    · exact .rightOut n hn
    · exact .right n hn
  | increment n =>
    obtain ⟨hd, rfl⟩ := execIncrement_cases h
    exact .inc n hd
  | decrement n =>
    obtain ⟨hd, rfl⟩ := execDecrement_cases h
    exact .dec n hd
  | readByte x =>
    obtain ⟨hi, hc, rfl⟩ | ⟨b, rest, hi, hd, rfl⟩ | ⟨hi, hc, hp⟩ := execReadByte_cases (x := x) h
    · exact .readWait x hi hc
    · exact .readTake x b rest hi hd
    · obtain ⟨hp, rfl⟩ | ⟨hp, hd, rfl⟩ | ⟨hp, rfl⟩ := hp
      · exact .readFault x hi hc hp
      · exact .readZero x hi hc hp hd
      · exact .readKeep x hi hc hp
  | writeByte x =>
    obtain ⟨hd, rfl⟩ := execWriteByte_cases (x := x) h
    exact .write x hd
  | jumpIfZero u =>
    obtain ⟨hd, ⟨hz, rfl⟩ | ⟨hz, rfl⟩⟩ := execJumpIfZero_cases h
    · exact .zeroTaken u hd hz
    · exact .zeroThrough u hd hz
  | jumpIfNonZero u =>
    obtain ⟨hd, ⟨hz, rfl⟩ | ⟨hz, rfl⟩⟩ := execJumpIfNonZero_cases h
    · exact .nonZeroTaken u hd hz
    · exact .nonZeroThrough u hd hz

/-- Where dp names a cell, every instruction has an effect. -/
theorem effect_exists (i : Instr) {s : State} (hd : s.dp.toNat < cells) : ∃ t, Effect s i t := by
  cases i with
  | moveLeft n =>
    rcases Nat.lt_or_ge s.dp.toNat n.toNat with h | h
    · exact ⟨_, .leftOut n h⟩
    · exact ⟨_, .left n h⟩
  | moveRight n =>
    rcases Nat.lt_or_ge (s.dp.toNat + n.toNat) cells with h | h
    · exact ⟨_, .right n h⟩
    · exact ⟨_, .rightOut n h⟩
  | increment n => exact ⟨_, .inc n hd⟩
  | decrement n => exact ⟨_, .dec n hd⟩
  | readByte x =>
    cases hi : s.input with
    | cons b rest => exact ⟨_, .readTake x b rest hi hd⟩
    | nil =>
      cases hc : s.inputClosed with
      | false => exact ⟨_, .readWait x hi hc⟩
      | true =>
        cases hp : s.cfg.eofPolicy with
        | fault => exact ⟨_, .readFault x hi hc hp⟩
        | storeZero => exact ⟨_, .readZero x hi hc hp hd⟩
        | unchanged => exact ⟨_, .readKeep x hi hc hp⟩
  | writeByte x => exact ⟨_, .write x hd⟩
  | jumpIfZero u =>
    by_cases hz : s.cell = 0
    · exact ⟨_, .zeroTaken u hd hz⟩
    · exact ⟨_, .zeroThrough u hd hz⟩
  | jumpIfNonZero u =>
    by_cases hz : s.cell = 0
    · exact ⟨_, .nonZeroThrough u hd hz⟩
    · exact ⟨_, .nonZeroTaken u hd hz⟩

/-- Every effect happens: the instruction answers the next state it names. -/
theorem exec_of_effect {i : Instr} {s t : State} (h : Effect s i t) : exec i s = .next t := by
  cases h with
  | leftOut n h => exact if_pos h
  | left n h => exact if_neg (Nat.not_lt.mpr h)
  | rightOut n h => exact if_pos h
  | right n h => exact if_neg (Nat.not_le.mpr h)
  | inc n hd => exact if_pos hd
  | dec n hd => exact if_pos hd
  | readWait x hi hc => simp only [exec, execReadByte, State.inRead_open hi hc]
  | readTake x b rest hi hd => simp only [exec, execReadByte, State.inRead_cons hi, State.withCell_of_lt hd]
  | readFault x hi hc hp => simp only [exec, execReadByte, State.inRead_closed hi hc, State.atEof, hp]
  | readZero x hi hc hp hd =>
    simp only [exec, execReadByte, State.inRead_closed hi hc, State.atEof, hp, State.withCell_of_lt hd]
  | readKeep x hi hc hp => simp only [exec, execReadByte, State.inRead_closed hi hc, State.atEof, hp]
  | write x hd => exact if_pos hd
  | zeroTaken u hd hz =>
    simp only [exec, execJumpIfZero, State.withCell_of_lt hd, isZero_of_eq hz, if_true]
  | zeroThrough u hd hz =>
    simp only [exec, execJumpIfZero, State.withCell_of_lt hd, isZero_of_ne hz, if_neg Bool.false_ne_true]
  | nonZeroTaken u hd hz =>
    simp only [exec, execJumpIfNonZero, State.withCell_of_lt hd, isZero_of_ne hz, if_neg Bool.false_ne_true]
  | nonZeroThrough u hd hz =>
    simp only [exec, execJumpIfNonZero, State.withCell_of_lt hd, isZero_of_eq hz, if_true]

end Sys2Proof.Machine
end

