-- ==== Sys2Proof/Laws/Image.lean ====
section
/-! SUPPORT. The checks of an image as propositions (R115). -/

namespace Sys2Proof.Machine

theorem allBelow_eq_true {p : Nat → Bool} {n : Nat} : allBelow p n = true ↔ ∀ i, i < n → p i = true := by
  induction n with
  | zero => simp [allBelow]
  | succ n ih =>
    simp only [allBelow, Bool.and_eq_true, ih]
    constructor
    · rintro ⟨hn, h⟩ i hi
      by_cases hin : i = n
      · exact hin ▸ hn
      · exact h i (by omega)
    · exact fun h => ⟨h n (by omega), fun i hi => h i (by omega)⟩

theorem wfCountAll_eq_true {fetch : Nat → Instr} {n : Nat} :
    wfCountAll fetch n = true ↔ ∀ i, i < n → (fetch i).wfCount = true := allBelow_eq_true

theorem wfZeroAll_eq_true {fetch : Nat → Instr} {n : Nat} :
    wfZeroAll fetch n = true ↔ ∀ i, i < n → (fetch i).wfZero = true := allBelow_eq_true

theorem wfPairAll_eq_true {fetch : Nat → Instr} {n : Nat} :
    wfPairAll fetch n = true ↔ ∀ i, i < n → (fetch i).wfPair fetch n i = true := allBelow_eq_true

/-- WF as a conjunction over the indices. -/
theorem wfImage_eq_true {depth n : Nat} {fetch : Nat → Instr} :
    wfImage depth fetch n = true ↔
      n ≤ depth ∧ ∀ i, i < n →
        (fetch i).wfCount = true ∧ (fetch i).wfZero = true ∧ (fetch i).wfPair fetch n i = true := by
  simp only [wfImage, wfLen, Bool.and_eq_true, decide_eq_true_eq, wfCountAll_eq_true, wfZeroAll_eq_true,
    wfPairAll_eq_true]
  constructor
  · rintro ⟨⟨⟨hl, hc⟩, hz⟩, hp⟩
    exact ⟨hl, fun i hi => ⟨hc i hi, hz i hi, hp i hi⟩⟩
  · rintro ⟨hl, h⟩
    exact ⟨⟨⟨hl, fun i hi => (h i hi).1⟩, fun i hi => (h i hi).2.1⟩, fun i hi => (h i hi).2.2⟩

/-- An image is admitted exactly when it is WF. -/
theorem checkImage_eq_none {depth n : Nat} {fetch : Nat → Instr} :
    checkImage depth fetch n = none ↔ wfImage depth fetch n = true := by
  simp only [checkImage, wfImage]
  cases wfLen depth n <;> cases wfCountAll fetch n <;> cases wfZeroAll fetch n <;>
    cases wfPairAll fetch n <;> simp

theorem State.admission_eq_none {s : State} : s.admission = none ↔ s.imageWf = true := checkImage_eq_none

/-- The target conditions of a JumpIfZero (R113). -/
theorem wfPair_jumpIfZero {fetch : Nat → Instr} {n i : Nat} {t : Operand} :
    (Instr.jumpIfZero t).wfPair fetch n i = true ↔
      i < t.toNat ∧ t.toNat < n ∧ (fetch t.toNat).nonZeroTarget? = some i := by
  simp [Instr.wfPair, Instr.zeroTarget?, Instr.nonZeroTarget?, and_assoc]

/-- The target conditions of a JumpIfNonZero (R113). -/
theorem wfPair_jumpIfNonZero {fetch : Nat → Instr} {n i : Nat} {t : Operand} :
    (Instr.jumpIfNonZero t).wfPair fetch n i = true ↔
      t.toNat < i ∧ (fetch t.toNat).zeroTarget? = some i := by
  simp [Instr.wfPair, Instr.zeroTarget?, Instr.nonZeroTarget?]

end Sys2Proof.Machine
end

