-- ==== Sys2Proof/Laws/HostPort.lean ====
section
/-! SUPPORT. What an action of the host can do, said once (R33, R34, R230). -/

namespace Sys2Proof.Machine

/-- Everything an action that answers a next state does. The last case is an action that is ignored. -/
theorem hostAct_cases {a : HostAction} {s t : State} (h : hostAct a s = .next t) :
    (a = .assertReset ∧ t = s.assertReset) ∨
    (a = .releaseReset ∧ s.runState = .reset ∧ s.imageWf = true ∧ t = s.freshRun) ∨
    (∃ i w, a = .writeImem i w ∧ s.runState = .reset ∧ i < s.cfg.imemDepth.val ∧
      t = { s with imem := Imem.write s.imem i w }) ∨
    (∃ v, a = .writeStatus 4 v ∧ s.runState = .reset ∧ t = { s with progLen := v.setWidth 30 }) ∨
    (∃ b, a = .supplyByte b ∧ s.inputClosed = false ∧ t = { s with input := s.input ++ [b] }) ∨
    (a = .closeInput ∧ t = s.closeInput) ∨
    (∃ l, a = .setCancel l ∧ s.cfg.hasCancel = true ∧ t = { s with cancel := l }) ∨
    (a ≠ .assertReset ∧ t = s) := by
  cases a with
  | assertReset => cases h; exact .inl ⟨rfl, rfl⟩
  | releaseReset =>
    simp only [hostAct, State.releaseReset] at h
    split at h
    · split at h
      · cases h
      · cases h
        exact .inr (.inl ⟨rfl, ‹_›, State.admission_eq_none.mp ‹_›, rfl⟩)
    all_goals cases h; simp
  | writeImem i w =>
    simp only [hostAct, State.hostWriteImem] at h
    split at h
    · split at h <;> cases h
      exact .inr (.inr (.inl ⟨i, w, rfl, ‹_›, ‹_›, rfl⟩))
    · cases h; simp
  | writeStatus i v =>
    simp only [hostAct, State.hostWriteStatus] at h
    split at h
    case h_5 =>
      split at h <;> cases h
      · exact .inr (.inr (.inr (.inl ⟨v, rfl, ‹_›, rfl⟩)))
      · simp
    all_goals cases h
    all_goals simp
  | supplyByte b =>
    simp only [hostAct, State.supplyByte] at h
    split at h
    · cases h; simp
    · cases h
      exact .inr (.inr (.inr (.inr (.inl ⟨b, rfl, Bool.eq_false_iff.mpr ‹_›, rfl⟩))))
  | closeInput => cases h; simp
  | setCancel l =>
    simp only [hostAct, State.setCancel] at h
    split at h
    · cases h; exact .inr (.inr (.inr (.inr (.inr (.inr (.inl ⟨l, rfl, ‹_›, rfl⟩))))))
    · cases h; simp

end Sys2Proof.Machine
end

