-- ==== Sys2Proof/Laws/Loader.lean ====
section
/-! SUPPORT. What each stage of the loader gives (40_loader.md R102 to R114). -/

namespace Sys2Proof.Machine

/-! ### Lexing -/

theorem operatorOf?_byte (op : Operator) : operatorOf? op.byte = some op := by cases op <;> decide

theorem byte_of_operatorOf? {b : Byte} {op : Operator} (h : operatorOf? b = some op) : op.byte = b := by
  unfold operatorOf? at h
  repeat' split at h
  all_goals first
    | (cases h; done)
    | (cases h; subst_vars; rfl)

/-- The significant sequence is the source without its comments (R102). -/
theorem significantFrom_bytes (off : Nat) (src : List Byte) :
    (significantFrom off src).map (fun e => e.2.byte) = src.filter fun b => (operatorOf? b).isSome := by
  induction src generalizing off with
  | nil => rfl
  | cons b src ih =>
    unfold significantFrom
    cases h : operatorOf? b with
    | none => simp [h, ih]
    | some op => simp [h, ih, byte_of_operatorOf? h]

/-- The operators of the significant sequence do not depend on the offsets (R102). -/
theorem significantFrom_ops (off : Nat) (src : List Byte) :
    (significantFrom off src).map Prod.snd = src.filterMap operatorOf? := by
  induction src generalizing off with
  | nil => rfl
  | cons b src ih =>
    unfold significantFrom
    cases h : operatorOf? b with
    | none => simp [h, ih]
    | some op => simp [h, ih]

/-! ### Grouping -/

/-- What every group satisfies: a run is not empty, and only the four counted operators collapse (R103, R105). -/
def groupOk (g : Group) : Prop := 1 ≤ g.count ∧ (collapses g.op = false → g.count = 1)

theorem groupsOf_ok (es : List (Nat × Operator)) : ∀ g ∈ groupsOf es, groupOk g := by
  induction es with
  | nil => simp [groupsOf]
  | cons e es ih =>
    obtain ⟨off, op⟩ := e
    simp only [groupsOf]
    cases hg : groupsOf es with
    | nil => simp [consGroup, groupOk]
    | cons g gs =>
      rw [hg] at ih
      simp only [consGroup]
      split
      · next hc =>
        simp only [Bool.and_eq_true] at hc
        intro x hx
        rcases List.mem_cons.mp hx with rfl | hx
        · exact ⟨Nat.le_add_left 1 _, fun h => by rw [hc.1] at h; cases h⟩
        · exact ih x (List.mem_cons_of_mem _ hx)
      · intro x hx
        rcases List.mem_cons.mp hx with rfl | hx
        · exact ⟨Nat.le_refl 1, fun _ => rfl⟩
        · exact ih x hx

/-- The groups hold the operators of the sequence, in order (R103). -/
theorem groupsOf_flatten (es : List (Nat × Operator)) :
    (groupsOf es).flatMap (fun g => List.replicate g.count g.op) = es.map Prod.snd := by
  induction es with
  | nil => rfl
  | cons e es ih =>
    obtain ⟨off, op⟩ := e
    simp only [groupsOf, List.map_cons, ← ih]
    cases hg : groupsOf es with
    | nil => simp [consGroup]
    | cons g gs =>
      simp only [consGroup]
      split
      · next hc =>
        simp only [Bool.and_eq_true, beq_iff_eq] at hc
        simp [hc.2, List.replicate_succ]
      · simp

/-- No two neighbouring groups could be one: runs are maximal (R103, R104). -/
def Maximal : List Group → Prop
  | g :: g' :: gs => ¬ (collapses g.op = true ∧ g.op = g'.op) ∧ Maximal (g' :: gs)
  | _ => True

theorem groupsOf_maximal (es : List (Nat × Operator)) : Maximal (groupsOf es) := by
  induction es with
  | nil => trivial
  | cons e es ih =>
    obtain ⟨off, op⟩ := e
    simp only [groupsOf]
    cases hg : groupsOf es with
    | nil => trivial
    | cons g gs =>
      rw [hg] at ih
      simp only [consGroup]
      split
      · next hc =>
        simp only [Bool.and_eq_true, beq_iff_eq] at hc
        cases gs with
        | nil => trivial
        | cons g' gs => exact ⟨hc.2 ▸ ih.1, ih.2⟩
      · next hc =>
        simp only [Bool.and_eq_true, beq_iff_eq] at hc
        exact ⟨hc, ih⟩

/-! ### The single pass -/

theorem getElem?_snoc {α : Type} (l : List α) (x : α) (i : Nat) :
    (l ++ [x])[i]? = if i < l.length then l[i]? else if i = l.length then some x else none := by
  rw [List.getElem?_append]
  split
  · rfl
  · split
    · next h => simp [h]
    · next h h' => exact List.getElem?_eq_none (by simp; omega)

theorem getElem?_snoc_old {α : Type} {l : List α} {x y : α} {i : Nat} (h : l[i]? = some y) :
    (l ++ [x])[i]? = some y := by
  rw [List.getElem?_append_left (List.getElem?_eq_some_iff.mp h).1, h]

theorem getElem?_snoc_inv {α : Type} {l : List α} {x y : α} {i : Nat} (h : (l ++ [x])[i]? = some y) :
    l[i]? = some y ∨ (i = l.length ∧ x = y) := by
  rw [getElem?_snoc] at h
  split at h
  · exact .inl h
  · split at h
    · cases h; exact .inr ⟨‹_›, rfl⟩
    · cases h

/-- A term is what its group gives, but for a jump's target (R104, R105). -/
def termFits (g : Group) (x : LoadTerm) : Prop :=
  x.op = g.op ∧ (collapses g.op = true → x.arg = g.count) ∧ (g.op = .comma ∨ g.op = .dot → x.arg = 0)

/-- The state of the pass: `out` holds one term per group of `done`, and `ps` the indices of the pending `[`, the most
recent first. Every other jump has its partner, and the pairs nest (R107, R108, R113). -/
structure Pass (done : List Group) (out : List LoadTerm) (ps : List Nat) : Prop where
  len : out.length = done.length
  fits : ∀ (i : Nat) (x : LoadTerm) (g : Group), out[i]? = some x → done[i]? = some g → termFits g x
  pending : ∀ p, p ∈ ps → out[p]? = some (LoadTerm.mk .openBracket 0)
  sorted : ps.Pairwise (· > ·)
  opens : ∀ i t : Nat, out[i]? = some (LoadTerm.mk .openBracket t) → i ∉ ps → i < t ∧ out[t]? = some (LoadTerm.mk .closeBracket i)
  closes : ∀ j t : Nat, out[j]? = some (LoadTerm.mk .closeBracket t) → t < j ∧ t ∉ ps ∧ out[t]? = some (LoadTerm.mk .openBracket j)
  nestPending : ∀ i t p : Nat, out[i]? = some (LoadTerm.mk .openBracket t) → i ∉ ps → p ∈ ps → ¬ (i < p ∧ p < t)
  nest : ∀ i t i' t' : Nat, out[i]? = some (LoadTerm.mk .openBracket t) → i ∉ ps → out[i']? = some (LoadTerm.mk .openBracket t') → i' ∉ ps →
    ¬ (i < i' ∧ i' < t ∧ t < t')

theorem Pass.start : Pass [] [] [] where
  len := rfl
  fits := by simp
  pending := by simp
  sorted := .nil
  opens := by simp
  closes := by simp
  nestPending := by simp
  nest := by simp

theorem Pass.lt {done : List Group} {out : List LoadTerm} {ps : List Nat} (h : Pass done out ps) {p : Nat}
    (hp : p ∈ ps) : p < out.length :=
  (List.getElem?_eq_some_iff.mp (h.pending p hp)).1

theorem Pass.fits_snoc {done : List Group} {out : List LoadTerm} {ps : List Nat} (h : Pass done out ps)
    {g : Group} {x : LoadTerm}
    (hx : termFits g x) :
    ∀ (i : Nat) (y : LoadTerm) (g' : Group), (out ++ [x])[i]? = some y → (done ++ [g])[i]? = some g' →
      termFits g' y := by
  intro i y g' hy hg
  have hl := h.len
  rcases getElem?_snoc_inv hy with hy | ⟨rfl, rfl⟩
  · rcases getElem?_snoc_inv hg with hg | ⟨rfl, _⟩
    · exact h.fits i y g' hy hg
    · have := (List.getElem?_eq_some_iff.mp hy).1
      omega
  · rcases getElem?_snoc_inv hg with hg | ⟨_, rfl⟩
    · have := (List.getElem?_eq_some_iff.mp hg).1
      omega
    · exact hx

/-- A term that is no jump. -/
theorem Pass.plain {done : List Group} {out : List LoadTerm} {ps : List Nat} (h : Pass done out ps)
    {g : Group} {x : LoadTerm} (ho : x.op ≠ .openBracket) (hc : x.op ≠ .closeBracket)
    (hx : termFits g x) : Pass (done ++ [g]) (out ++ [x]) ps := by
  have hop : ∀ i t : Nat, (out ++ [x])[i]? = some (LoadTerm.mk .openBracket t) → out[i]? = some (LoadTerm.mk .openBracket t) := by
    intro i t hi
    rcases getElem?_snoc_inv hi with hi | ⟨_, rfl⟩
    · exact hi
    · exact absurd rfl ho
  constructor
  · simp [h.len]
  · exact h.fits_snoc hx
  · exact fun p hp => getElem?_snoc_old (h.pending p hp)
  · exact h.sorted
  · intro i t hi hn
    obtain ⟨h1, h2⟩ := h.opens i t (hop i t hi) hn
    exact ⟨h1, getElem?_snoc_old h2⟩
  · intro j t hj
    rcases getElem?_snoc_inv hj with hj | ⟨_, rfl⟩
    · obtain ⟨h1, h2, h3⟩ := h.closes j t hj
      exact ⟨h1, h2, getElem?_snoc_old h3⟩
    · exact absurd rfl hc
  · exact fun i t p hi hn hp => h.nestPending i t p (hop i t hi) hn hp
  · exact fun i t i' t' hi hn hi' hn' => h.nest i t i' t' (hop i t hi) hn (hop i' t' hi') hn'

/-- A `[`: its index becomes the most recent pending one (R107). -/
theorem Pass.openBracket {done : List Group} {out : List LoadTerm} {ps : List Nat} (h : Pass done out ps)
    {g : Group} (hg : g.op = .openBracket) :
    Pass (done ++ [g]) (out ++ [LoadTerm.mk .openBracket 0]) (out.length :: ps) := by
  have hop : ∀ i t : Nat, (out ++ [LoadTerm.mk .openBracket 0])[i]? = some (LoadTerm.mk .openBracket t) → i ∉ out.length :: ps →
      out[i]? = some (LoadTerm.mk .openBracket t) ∧ i ∉ ps := by
    intro i t hi hn
    rcases getElem?_snoc_inv hi with hi | ⟨rfl, _⟩
    · exact ⟨hi, fun hm => hn (List.mem_cons_of_mem _ hm)⟩
    · exact absurd (List.mem_cons_self) hn
  constructor
  · simp [h.len]
  · exact h.fits_snoc ⟨hg.symm, by simp [hg, collapses], by simp [hg]⟩
  · intro p hp
    rcases List.mem_cons.mp hp with rfl | hp
    · simp
    · exact getElem?_snoc_old (h.pending p hp)
  · exact List.Pairwise.cons (fun p hp => h.lt hp) h.sorted
  · intro i t hi hn
    obtain ⟨hi, hn⟩ := hop i t hi hn
    obtain ⟨h1, h2⟩ := h.opens i t hi hn
    exact ⟨h1, getElem?_snoc_old h2⟩
  · intro j t hj
    rcases getElem?_snoc_inv hj with hj | ⟨_, hj⟩
    · obtain ⟨h1, h2, h3⟩ := h.closes j t hj
      refine ⟨h1, fun hm => ?_, getElem?_snoc_old h3⟩
      rcases List.mem_cons.mp hm with rfl | hm
      · have := (List.getElem?_eq_some_iff.mp h3).1
        omega
      · exact h2 hm
    · cases hj
  · intro i t p hi hn hp hlt
    obtain ⟨hi, hn⟩ := hop i t hi hn
    rcases List.mem_cons.mp hp with rfl | hp
    · have := (List.getElem?_eq_some_iff.mp (h.opens i t hi hn).2).1
      omega
    · exact h.nestPending i t p hi hn hp hlt
  · intro i t i' t' hi hn hi' hn'
    obtain ⟨hi, hn⟩ := hop i t hi hn
    obtain ⟨hi', hn'⟩ := hop i' t' hi' hn'
    exact h.nest i t i' t' hi hn hi' hn'

/-- A `]`: the most recent pending `[` and it become a pair (R108). -/
theorem Pass.closeBracket {done : List Group} {out : List LoadTerm} {p : Nat} {ps : List Nat}
    (h : Pass done out (p :: ps)) {g : Group} (hg : g.op = .closeBracket) :
    Pass (done ++ [g])
      (List.set (out ++ [LoadTerm.mk .closeBracket p]) p (LoadTerm.mk .openBracket out.length)) ps := by
  have hp : p < out.length := h.lt List.mem_cons_self
  have hrest : ∀ q, q ∈ ps → q < p := fun q hq => List.rel_of_pairwise_cons h.sorted hq
  have hget : ∀ i : Nat, (List.set (out ++ [LoadTerm.mk .closeBracket p]) p (LoadTerm.mk .openBracket out.length))[i]? =
      if i = p then some (LoadTerm.mk .openBracket out.length) else (out ++ [LoadTerm.mk .closeBracket p])[i]? := by
    intro i
    rw [List.getElem?_set]
    by_cases hi : i = p
    · subst hi
      rw [if_pos rfl, if_pos rfl, if_pos (by simp; omega)]
    · rw [if_neg (Ne.symm hi), if_neg hi]
  have hne : ∀ (i : Nat) (y : LoadTerm), i ≠ p → out[i]? = some y →
      (List.set (out ++ [LoadTerm.mk .closeBracket p]) p (LoadTerm.mk .openBracket out.length))[i]? = some y := by
    intro i y hi hy
    rw [hget, if_neg hi, getElem?_snoc_old hy]
  have hop : ∀ i t : Nat, (List.set (out ++ [LoadTerm.mk .closeBracket p]) p (LoadTerm.mk .openBracket out.length))[i]? =
      some (LoadTerm.mk .openBracket t) →
      (i = p ∧ t = out.length) ∨ (i ≠ p ∧ out[i]? = some (LoadTerm.mk .openBracket t)) := by
    intro i t hi
    rw [hget] at hi
    split at hi
    · cases hi; exact .inl ⟨‹_›, rfl⟩
    · rcases getElem?_snoc_inv hi with hi | ⟨_, hi⟩
      · exact .inr ⟨‹_›, hi⟩
      · cases hi
  have hnm : ∀ i, i ≠ p → i ∉ ps → i ∉ p :: ps := by
    intro i hi hn hm
    rcases List.mem_cons.mp hm with hm | hm
    · exact hi hm
    · exact hn hm
  constructor
  · simp [h.len]
  · intro i y g' hy hg'
    rw [hget] at hy
    split at hy
    · next hi =>
      cases hy
      rw [hi, List.getElem?_append_left (by rw [← h.len]; exact hp)] at hg'
      obtain ⟨h1, h2, h3⟩ := h.fits p _ g' (h.pending p List.mem_cons_self) hg'
      have h1 : Operator.openBracket = g'.op := h1
      exact ⟨h1, by simp [← h1, collapses], by simp [← h1]⟩
    · exact h.fits_snoc (g := g) (x := LoadTerm.mk .closeBracket p) ⟨hg.symm, by simp [hg, collapses], by simp [hg]⟩ i y g' hy hg'
  · intro q hq
    have := hrest q hq
    exact hne q _ (by omega) (h.pending q (List.mem_cons_of_mem _ hq))
  · exact h.sorted.of_cons
  · intro i t hi hn
    rcases hop i t hi with ⟨rfl, rfl⟩ | ⟨hip, hi⟩
    · refine ⟨hp, ?_⟩
      rw [hget, if_neg (by omega)]
      simp
    · obtain ⟨h1, h2⟩ := h.opens i t hi (hnm i hip hn)
      refine ⟨h1, hne t _ ?_ h2⟩
      intro ht
      subst ht
      rw [h.pending t List.mem_cons_self] at h2
      cases h2
  · intro j t hj
    rw [hget] at hj
    split at hj
    · cases hj
    · rcases getElem?_snoc_inv hj with hj | ⟨rfl, hx⟩
      · obtain ⟨h1, h2, h3⟩ := h.closes j t hj
        have htp : t ≠ p := fun ht => h2 (ht ▸ List.mem_cons_self)
        exact ⟨h1, fun hm => h2 (List.mem_cons_of_mem _ hm), hne t _ htp h3⟩
      · cases hx
        refine ⟨hp, fun hm => ?_, by rw [hget, if_pos rfl]⟩
        have := hrest p hm
        omega
  · intro i t q hi hn hq hlt
    have hqp := hrest q hq
    rcases hop i t hi with ⟨rfl, rfl⟩ | ⟨hip, hi⟩
    · omega
    · exact h.nestPending i t q hi (hnm i hip hn) (List.mem_cons_of_mem _ hq) hlt
  · intro i t i' t' hi hn hi' hn' hlt
    rcases hop i t hi with ⟨rfl, rfl⟩ | ⟨hip, hio⟩
    · rcases hop i' t' hi' with ⟨rfl, rfl⟩ | ⟨hip', hi'⟩
      · omega
      · have := (List.getElem?_eq_some_iff.mp (h.opens i' t' hi' (hnm i' hip' hn')).2).1
        omega
    · rcases hop i' t' hi' with ⟨rfl, ht⟩ | ⟨hip', hi'⟩
      · exact h.nestPending i t i' hio (hnm i hip hn) List.mem_cons_self ⟨hlt.1, hlt.2.1⟩
      · exact h.nest i t i' t' hio (hnm i hip hn) hi' (hnm i' hip' hn') hlt

/-- A pass that succeeds ends with every bracket matched. -/
theorem assemble_pass {gs done : List Group} {out res : List LoadTerm} {stack : List (Nat × Nat)}
    (hp : Pass done out (stack.map Prod.fst)) (h : assemble gs out stack = .ok res) :
    Pass (done ++ gs) res [] := by
  induction gs generalizing done out stack with
  | nil =>
    cases stack with
    | nil =>
      cases h
      simpa using hp
    | cons e stack => cases h
  | cons g gs ih =>
    have hcons : done ++ g :: gs = (done ++ [g]) ++ gs := by simp
    rw [hcons]
    cases hg : g.op <;> simp only [assemble, hg] at h
    case openBracket => exact ih (hp.openBracket hg) h
    case closeBracket =>
      cases stack with
      | nil => cases h
      | cons e stack => exact ih (hp.closeBracket hg) h
    all_goals exact ih (hp.plain (by simp) (by simp) (by simp [termFits, hg, collapses])) h

/-! ### Brackets only -/

/-- What the pass does with the brackets of a source: the stack holds the offsets of the pending `[` (R107, R108). -/
def bracketScan : Nat → List Byte → List Nat → Except LoadError (List Nat)
  | _, [], st => .ok st
  | off, b :: src, st =>
    if b = 0x5B#8 then bracketScan (off + 1) src (off :: st)
    else if b = 0x5D#8 then
      match st with
      | [] => .error (.unmatchedCloseBracket off)
      | _ :: st => bracketScan (off + 1) src st
    else bracketScan (off + 1) src st

/-- The same over groups. -/
def groupScan : List Group → List Nat → Except LoadError (List Nat)
  | [], st => .ok st
  | g :: gs, st =>
    match g.op, st with
    | .openBracket, st => groupScan gs (g.off :: st)
    | .closeBracket, [] => .error (.unmatchedCloseBracket g.off)
    | .closeBracket, _ :: st => groupScan gs st
    | _, st => groupScan gs st

theorem groupScan_consGroup (off : Nat) (op : Operator) (gs : List Group) (st : List Nat) :
    groupScan (consGroup off op gs) st = groupScan (⟨off, op, 1⟩ :: gs) st := by
  cases gs with
  | nil => rfl
  | cons g gs =>
    simp only [consGroup]
    split
    · next hc =>
      simp only [Bool.and_eq_true, beq_iff_eq] at hc
      obtain ⟨hc, rfl⟩ := hc
      cases hgo : g.op <;> rw [hgo] at hc <;> simp [collapses] at hc <;> simp [groupScan, hgo]
    · rfl

/-- The groups of a source carry its brackets at their own offsets. -/
theorem groupScan_source (src : List Byte) (off : Nat) (st : List Nat) :
    groupScan (groupsOf (significantFrom off src)) st = bracketScan off src st := by
  induction src generalizing off st with
  | nil => rfl
  | cons b src ih =>
    unfold significantFrom bracketScan
    cases h : operatorOf? b with
    | none =>
      have h1 : b ≠ 0x5B#8 := by rintro rfl; revert h; decide
      have h2 : b ≠ 0x5D#8 := by rintro rfl; revert h; decide
      simp [h1, h2, ih]
    | some op =>
      have hb := byte_of_operatorOf? h
      subst hb
      simp only [groupsOf, groupScan_consGroup]
      cases op <;> cases st <;> simp [Operator.byte, groupScan, ih]

/-- The pass fails exactly as the brackets of the groups do, and reports their offsets (R108, R109). -/
theorem assemble_groupScan (gs : List Group) (out : List LoadTerm) (st : List (Nat × Nat)) :
    match groupScan gs (st.map Prod.snd) with
    | .error e => assemble gs out st = .error e
    | .ok [] => ∃ r, assemble gs out st = .ok r
    | .ok (o :: _) => assemble gs out st = .error (.unclosedLoop o) := by
  induction gs generalizing out st with
  | nil => cases st <;> simp [groupScan, assemble]
  | cons g gs ih =>
    cases hg : g.op <;> simp only [groupScan, assemble, hg]
    case openBracket => exact ih _ ((out.length, g.off) :: st)
    case closeBracket =>
      cases st with
      | nil => simp
      | cons e st => exact ih _ st
    all_goals exact ih _ st

/-! ### The whole loader -/

theorem overflowAt_none {gs : List Group} {out : List LoadTerm} (hl : gs.length = out.length)
    (h : overflowAt gs out = none) : ∀ x ∈ out, x.arg < 2 ^ 29 := by
  induction gs generalizing out with
  | nil => cases out <;> simp_all
  | cons g gs ih =>
    cases out with
    | nil => simp
    | cons x xs =>
      simp only [overflowAt] at h
      split at h
      · cases h
      · intro y hy
        rcases List.mem_cons.mp hy with rfl | hy
        · omega
        · exact ih (by simpa using hl) h y hy

/-- What a successful load gives: the terms of one finished pass over the groups of the source, encoded (R114). -/
theorem load_ok {depth : Nat} {src : List Byte} {img : Image} (h : load depth src = .ok img) :
    ∃ out, Pass (groupsOf (significantFrom 0 src)) out [] ∧ out.length ≤ depth ∧ (∀ x ∈ out, x.arg < 2 ^ 29) ∧
      img = ⟨out.map fun x => encode x.instr⟩ := by
  unfold load at h
  generalize ha : assemble (groupsOf (significantFrom 0 src)) [] [] = r at h
  cases r with
  | error e => cases h
  | ok out =>
    have hp := assemble_pass Pass.start ha
    rw [List.nil_append] at hp
    refine ⟨out, hp, ?_⟩
    have h : finishLoad depth (groupsOf (significantFrom 0 src)) out = .ok img := h
    unfold finishLoad at h
    generalize hn : tooLongAt depth (groupsOf (significantFrom 0 src)) out = o at h
    generalize ho : overflowAt (groupsOf (significantFrom 0 src)) out = f at h
    cases o with
    | some off => cases h
    | none =>
      cases f with
      | some off => cases h
      | none =>
        cases h
        refine ⟨?_, overflowAt_none hp.len.symm ho, rfl⟩
        unfold tooLongAt at hn
        by_cases hlt : out.length > depth
        · rw [if_pos hlt, Option.map_eq_none_iff, List.getElem?_eq_none_iff] at hn
          have := hp.len
          omega
        · omega

end Sys2Proof.Machine
end

