-- ==== Sys2Proof/Laws/PerInstr.lean ====
section
/-! SUPPORT. The per-instruction family EncodedFields: the op and operand fields of an instruction's word are the ones
the opcode map gives it (R72, R73). -/

namespace Sys2Proof.Laws.EncodedFields

/-- The fields of the word of `i`. -/
def Statement (i : Instr) : Prop := opField (encode i) = i.opBits ∧ operandField (encode i) = i.operand

theorem fields_of_append (op : BitVec 3) (x : Operand) :
    opField (op ++ x) = op ∧ operandField (op ++ x) = x :=
  ⟨opField_append op x, operandField_append op x⟩

theorem moveLeft (n : Operand) : Statement (.moveLeft n) := fields_of_append _ n

theorem moveRight (n : Operand) : Statement (.moveRight n) := fields_of_append _ n

theorem increment (n : Operand) : Statement (.increment n) := fields_of_append _ n

theorem decrement (n : Operand) : Statement (.decrement n) := fields_of_append _ n

theorem readByte (x : Operand) : Statement (.readByte x) := fields_of_append _ x

theorem writeByte (x : Operand) : Statement (.writeByte x) := fields_of_append _ x

theorem jumpIfZero (t : Operand) : Statement (.jumpIfZero t) := fields_of_append _ t

theorem jumpIfNonZero (t : Operand) : Statement (.jumpIfNonZero t) := fields_of_append _ t

end Sys2Proof.Laws.EncodedFields
end

