-- ==== Sys2Proof/Laws/Step.lean ====
section
/-! SUPPORT. What a step can do, said once (R131, R135). -/

namespace Sys2Proof.Machine

/-- While the run is not over and the image is WF, the step is the block's. -/
theorem step_of_active {s : State} (ha : s.active) (hw : s.imageWf = true) : step s = s.blockStep := by
  have hg : s.guardedStep = s.blockStep := by
    simp [State.guardedStep, State.admission_eq_none.mpr hw]
  rcases ha with h | h <;> simp [step, State.stepByRunState, h, hg]

/-- A step that answers a next state is taken while the run is not over, on a WF image. -/
theorem step_next_active {s t : State} (h : step s = .next t) :
    s.active ∧ s.imageWf = true ∧ s.blockStep = .next t := by
  have key : ∀ {r : RunState}, s.runState = r → (r = .run ∨ r = .waitIn) → s.guardedStep = .next t →
      s.active ∧ s.imageWf = true ∧ s.blockStep = .next t := by
    intro r hr hor hg
    unfold State.guardedStep at hg
    split at hg
    · cases hg
    · next hn =>
      refine ⟨?_, State.admission_eq_none.mp hn, hg⟩
      rcases hor with rfl | rfl
      · exact .inl hr
      · exact .inr hr
  unfold step State.stepByRunState at h
  split at h
  · cases h
  · next hr => exact key hr (.inl rfl) h
  · next hr => exact key hr (.inr rfl) h
  · cases h
  · cases h

/-- Everything a step that answers a next state does: cancel, halt, or the instruction at pc (R131, R210). -/
theorem step_cases {s t : State} (h : step s = .next t) :
    (s.active ∧ s.imageWf = true ∧ s.cfg.hasCancel = true ∧ s.cancel = true ∧
      t = s.enterFault .cancelled s.pc s.dp) ∨
    (s.active ∧ s.imageWf = true ∧ s.cancelAsserted = false ∧ s.progLen.toNat ≤ s.pc.toNat ∧ t = s.halt) ∨
    (s.executes ∧ ∃ i, s.current = i ∧ Effect s i t) := by
  obtain ⟨ha, hw, hb⟩ := step_next_active h
  unfold State.blockStep at hb
  split at hb
  · next hc =>
    cases hb
    simp only [State.cancelAsserted, Bool.and_eq_true] at hc
    exact .inl ⟨ha, hw, hc.1, hc.2, rfl⟩
  · next hc =>
    have hc : s.cancelAsserted = false := by simpa using hc
    split at hb
    · cases hb
      exact .inr (.inl ⟨ha, hw, hc, ‹_›, rfl⟩)
    · exact .inr (.inr ⟨⟨ha, hw, hc, by omega⟩, s.current, rfl, exec_effect hb⟩)

/-- Where an instruction executes, the step is its effect. -/
theorem step_of_executes {s : State} (h : s.executes) : step s = exec s.current s := by
  obtain ⟨ha, hw, hc, hp⟩ := h
  rw [step_of_active ha hw]
  simp only [State.blockStep, hc, State.current]
  rw [if_neg (by simp), if_neg (by omega)]

end Sys2Proof.Machine
end

