-- ==== Sys2Proof/Tests/Slice0.lean ====
section
/-! SUPPORT. The model's own tests. Expected results are the spec's worked examples and vectors (95_test_vectors.md, named
by their ids); a witness shows a concrete state that meets the hypotheses of a statement. -/

namespace Sys2Proof.Tests

open Sys2Proof Sys2Proof.Machine

/-! ### Helpers -/

/-- The machine in RUN with a program, about to run the instruction at index `p`. -/
def prog (p : Nat) (ws : List Word) : State := State.reset.withProgram p ws

/-- The next state of a step that has one. -/
def after (o : Outcome) (s : State) : State :=
  match o with
  | .next t => t
  | .fault _ => s
  | .refused _ => s

/-- A field of the next state. -/
def field {α : Type} (o : Outcome) (f : State → α) : Option α :=
  match o with
  | .next t => some (f t)
  | .fault _ => none
  | .refused _ => none

/-- Why a step was refused. -/
def refusal (o : Outcome) : Option Refusal :=
  match o with
  | .next _ => none
  | .fault _ => none
  | .refused r => some r

/-- The instructions of a loaded image. -/
def loaded (r : Except LoadError Image) : Option (List Instr) :=
  match r with
  | .ok img => some (img.words.map decode)
  | .error _ => none

/-- The error of a load. -/
def loadError (r : Except LoadError Image) : Option LoadError :=
  match r with
  | .ok _ => none
  | .error e => some e

/-- The image of a load, empty where it fails. -/
def image (r : Except LoadError Image) : Image :=
  match r with
  | .ok img => img
  | .error _ => ⟨[]⟩

/-! ### Decoding: words written out from R72 and R73 -/

theorem test_decode_moveLeft : decode 0b00000000000000000000000000000011#32 = .moveLeft 3 := by decide
theorem test_decode_moveRight : decode 0b00100000000000000111010100110000#32 = .moveRight 30000 := by decide -- L14
theorem test_decode_increment : decode 0b01000000000000000000000000000101#32 = .increment 5 := by decide -- E1
theorem test_decode_decrement : decode 0b01100000000000000000000000000001#32 = .decrement 1 := by decide -- R80
theorem test_decode_readByte : decode 0b10000000000000000000000000000000#32 = .readByte 0 := by decide -- R80
theorem test_decode_writeByte : decode 0b10100000000000000000000000000000#32 = .writeByte 0 := by decide -- E5
theorem test_decode_jumpIfZero : decode 0b11000000000000000000000000000101#32 = .jumpIfZero 5 := by decide -- E2
theorem test_decode_jumpIfNonZero : decode 0b11100000000000000000000000000010#32 = .jumpIfNonZero 2 := by decide -- S5
theorem test_decode_widest_count : decode 0x3FFFFFFF#32 = .moveRight 536870911 := by decide -- E6
theorem test_decode_bytes : decodeBytes [0x05, 0x00, 0x00, 0x40, 0xFF] = .ok (.increment 5, [0xFF]) := by rfl -- E7
theorem test_decode_truncated : decodeBytes [0x05, 0x00, 0x00] = .error .truncatedWord := by rfl
theorem test_decode_table : decodeTableWord 32 0xE0000001 = some (.jumpIfNonZero 1) := by decide
theorem test_encode : encode (.jumpIfNonZero 2) = 0xE0000002#32 := by decide -- S5
theorem test_listing : listing [.increment 5, .readByte 0] = "Increment(5), ReadByte" := by decide -- R78

/-! ### Well-formedness: an ill-formed term for each check (R76, R115) -/

theorem test_wf_count : (decode 0x00000000#32).wfCount = false := by decide -- E3
theorem test_wf_zero : (decode 0x80000001#32).wfZero = false := by decide -- E4
theorem test_wf_both : (Instr.increment 1).wf = true ∧ (Instr.writeByte 1).wf = false := by decide
theorem test_wf_pair_target_below : Instr.wfPair (fun _ => .jumpIfNonZero 0) 1 0 (.jumpIfNonZero 0) = false := by
  decide -- E8
theorem test_wf_pair_past_end : Instr.wfPair (fun _ => .jumpIfNonZero 0) 1 0 (.jumpIfZero 1) = false := by decide
theorem test_refuse_count : refusal (step (prog 0 [0x40000000])) = some .countZero := by decide
theorem test_refuse_operand : refusal (step (prog 0 [0xA0000001])) = some .operandNotZero := by decide
theorem test_refuse_pair : refusal (step (prog 0 [0xE0000000])) = some .bracketsNotPaired := by decide
theorem test_refuse_length :
    refusal (step { prog 0 [0x40000001] with cfg := { Config.reference with imemDepth := 0 } }) =
      some .imageTooLong := by decide

/-! ### Cursor: M1 to M10 -/

theorem test_moveLeft : field (exec (.moveLeft 3) { prog 0 [3] with dp := 7 }) (fun t => (t.dp, t.pc)) =
    some (4, 1) := by decide -- M1
theorem test_moveLeft_out : field (exec (.moveLeft 4) { prog 0 [4] with dp := 3 })
    (fun t => (t.runState, t.faultCause, t.faultDp, t.dp, t.pc)) =
    some (.faulted, .cellRangeError, 3, 3, 0) := by decide -- M3
theorem test_moveRight : field (exec (.moveRight 29899) { prog 0 [5] with dp := 100 }) (fun t => t.dp) =
    some 29999 := by decide -- M10
theorem test_moveRight_no_wrap : field (exec (.moveRight 2769) { prog 0 [5] with dp := 29999 })
    (fun t => (t.faultCause, t.faultDp, t.dp)) = some (.cellRangeError, 29999, 29999) := by decide -- M9

/-! ### Cell arithmetic: A1 to A9 -/

theorem test_increment : field (exec (.increment 8) { prog 0 [5] with mem := [(0, 250)] }) (fun t => t.mem) =
    some [(0, 2)] := by decide -- A1
theorem test_increment_wide : field (exec (.increment 536870911) (prog 0 [5])) (fun t => t.cell) =
    some 255 := by decide -- A5
theorem test_decrement_below_zero : field (exec (.decrement 5) (prog 0 [5])) (fun t => t.cell) =
    some 251 := by decide -- A7
theorem test_decrement_to_zero : field (exec (.decrement 266) { prog 0 [5] with mem := [(0, 10)] })
    (fun t => (t.cell, t.mem)) = some (0, []) := by decide -- A9

/-! ### Input and output: IO1 to IO8 -/

theorem test_readByte : field (exec (.readByte 0) { prog 0 [5] with input := [0x41] })
    (fun t => (t.cell, t.input, t.consumed, t.pc)) = some (0x41, [], [0x41], 1) := by decide -- IO1
theorem test_readByte_end : field (exec (.readByte 0) { prog 0 [5] with inputClosed := true, mem := [(0, 9)] })
    (fun t => (t.faultCause, t.cell, t.pc)) = some (.inputExhausted, 9, 0) := by decide -- IO3
theorem test_writeByte : field (exec (.writeByte 0) { prog 0 [5] with mem := [(0, 0xFF)], output := [1] })
    (fun t => t.output) = some [1, 0xFF] := by decide -- IO8

/-! ### Jumps and the cycle: J1 to J9 -/

theorem test_jumpIfZero_taken : field (exec (.jumpIfZero 4) { prog 1 [5, 5] with dp := 0 }) (fun t => t.pc) =
    some 5 := by decide -- J1
theorem test_jumpIfZero_through : field (exec (.jumpIfZero 4) { prog 1 [5, 5] with mem := [(0, 1)] })
    (fun t => t.pc) = some 2 := by decide -- J2
theorem test_jumpIfNonZero_taken : field (exec (.jumpIfNonZero 1) { prog 4 [5] with mem := [(0, 4)] })
    (fun t => t.pc) = some 2 := by decide -- J3
theorem test_jumpIfNonZero_through : field (exec (.jumpIfNonZero 1) (prog 4 [5])) (fun t => t.pc) =
    some 5 := by decide -- J4
theorem test_empty_program_halts : field (step State.reset) (fun t => (t.runState, t.pc)) =
    some (.halted, 0) := by decide -- J7
theorem test_cancel_before_halt :
    field (step { State.reset with cfg := { Config.reference with hasCancel := true }, cancel := true })
      (fun t => (t.runState, t.faultCause)) = some (.faulted, .cancelled) := by decide -- J9

/-! ### A word placed by withFetchWord is what the next step runs -/

theorem test_fetch_moveRight : field (step (State.reset.withFetchWord 32 0x20000001)) (fun t => t.dp) =
    some 1 := by decide
theorem test_fetch_jumpIfZero : field (step (State.reset.withFetchWord 32 0xC0000005)) (fun t => t.pc) =
    some 6 := by decide
theorem test_fetch_jumpIfNonZero : field (step (State.reset.withFetchWord 32 0xE0000001)) (fun t => t.pc) =
    some 3 := by decide

/-! ### Loader: S3, S5, L6, L7 -/

/-- `+++a+++` -/
theorem test_load_run : loaded (load 8 [0x2B, 0x2B, 0x2B, 0x61, 0x2B, 0x2B, 0x2B]) = some [.increment 6] := by decide
/-- `+++++[[-]]` -/
theorem test_load_nested : loaded (load 8 [0x2B, 0x2B, 0x2B, 0x2B, 0x2B, 0x5B, 0x5B, 0x2D, 0x5D, 0x5D]) =
    some [.increment 5, .jumpIfZero 5, .jumpIfZero 4, .decrement 1, .jumpIfNonZero 2, .jumpIfNonZero 1] := by decide
/-- `][` -/
theorem test_load_precedence : loadError (load 8 [0x5D, 0x5B]) = some (.unmatchedCloseBracket 0) := by decide
/-- `[[]` -/
theorem test_load_unclosed : loadError (load 8 [0x5B, 0x5B, 0x5D]) = some (.unclosedLoop 0) := by decide
/-- L13: two groups where one fits. -/
theorem test_load_too_long : loadError (load 1 [0x2B, 0x61, 0x2C]) = some (.programTooLong 2) := by decide

/-! ### Witnesses: states that meet the hypotheses of the statements -/

/-- A state with a WF program meets the invariant when its checked fields do. -/
theorem inv_of_running {s : State} (hm : Memory.wf s.mem = true) (hi : Imem.wf s.cfg.imemDepth.val s.imem = true)
    (hd : s.dp.toNat < cells) (hw : s.imageWf = true) (hp : s.pc.toNat ≤ s.progLen.toNat) (hr : s.runState = .run)
    (hc : s.faultCause = .none ∧ s.faultPc = 0 ∧ s.faultDp = 0) : s.Inv where
  memWf := hm
  imemWf := hi
  dpInRange := hd
  admitted := fun _ => hw
  pcInRange := fun _ => hp
  waitsAtRead := fun h => by rw [hr] at h; cases h
  haltedAtEnd := fun h => by rw [hr] at h; cases h
  noRecord := fun _ => hc
  record := fun h => by rw [hr] at h; cases h
  cancelBacked := fun h => by rw [hc.1] at h; cases h
  eofBacked := fun h => by rw [hc.1] at h; cases h

/-- `>` at the last cell. -/
def atEdge : State := { prog 0 [0x20000001] with dp := 29999 }
/-- `>` with room. -/
def moving : State := prog 0 [0x20000001]
/-- `+` -/
def counting : State := prog 0 [0x40000005]
/-- `,` with one byte supplied. -/
def reading : State := { prog 0 [0x80000000] with input := [0x41] }
/-- `,` with no answer yet. -/
def starving : State := prog 0 [0x80000000]
/-- `,` at end-of-input, under a policy. -/
def ended (p : EofPolicy) : State :=
  { prog 0 [0x80000000] with inputClosed := true, cfg := { Config.reference with eofPolicy := p } }
/-- `.` -/
def writing : State := { prog 0 [0xA0000000] with mem := [(0, 0x3F)] }
/-- `[]` at index `p`, with the cell at the cursor 0. -/
def looping (p : Nat) : State := prog p [0xC0000001, 0xE0000000]
/-- The same with the cell nonzero. -/
def loopingOn (p : Nat) : State := { looping p with mem := [(0, 1)] }
/-- With cancel asserted. -/
def cancelled : State := { counting with cfg := { Config.reference with hasCancel := true }, cancel := true }
/-- Held in reset with a program. -/
def held : State := { counting with runState := .reset }

theorem counting_inv : counting.Inv :=
  inv_of_running (by decide) (by decide) (by decide) (by decide) (by decide) rfl ⟨rfl, rfl, rfl⟩
theorem atEdge_inv : atEdge.Inv :=
  inv_of_running (by decide) (by decide) (by decide) (by decide) (by decide) rfl ⟨rfl, rfl, rfl⟩
theorem reading_inv : reading.Inv :=
  inv_of_running (by decide) (by decide) (by decide) (by decide) (by decide) rfl ⟨rfl, rfl, rfl⟩
theorem looping_inv : (looping 0).Inv :=
  inv_of_running (by decide) (by decide) (by decide) (by decide) (by decide) rfl ⟨rfl, rfl, rfl⟩
theorem loopingOn_inv : (loopingOn 1).Inv :=
  inv_of_running (by decide) (by decide) (by decide) (by decide) (by decide) rfl ⟨rfl, rfl, rfl⟩
theorem loopingOn_open_inv : (loopingOn 0).Inv :=
  inv_of_running (by decide) (by decide) (by decide) (by decide) (by decide) rfl ⟨rfl, rfl, rfl⟩
theorem cancelled_inv : cancelled.Inv :=
  inv_of_running (by decide) (by decide) (by decide) (by decide) (by decide) rfl ⟨rfl, rfl, rfl⟩
theorem ended_inv : (ended .fault).Inv :=
  inv_of_running (by decide) (by decide) (by decide) (by decide) (by decide) rfl ⟨rfl, rfl, rfl⟩

theorem executes_of {s : State} (hr : s.runState = .run) (hw : s.imageWf = true) (hc : s.cancelAsserted = false)
    (hp : s.pc.toNat < s.progLen.toNat) : s.executes := ⟨.inl hr, hw, hc, hp⟩

theorem witness_ImageBytesLayout : 3 < 4 ∧ ([0x40000005] : List Word)[0]? = some 0x40000005 := by decide

theorem witness_CellReadAfterWrite : Memory.wf [(0, 1)] = true ∧ 29999 < cells ∧ (0 : Nat) ≠ 29999 := by decide

theorem witness_EqualTapesAreEqualData : Memory.wf [(0, 5)] = true ∧
    ∀ a, Memory.read [(0, 5)] a = Memory.read (Memory.write [] 0 5) a := ⟨by decide, fun _ => rfl⟩

theorem witness_MoveLeftEffect_fault :
    1 ≤ (4 : Operand).toNat ∧ (4 : Operand).toNat > ({ moving with dp := 3 } : State).dp.toNat := by decide
theorem witness_MoveLeftEffect_retire : 1 ≤ (3 : Operand).toNat ∧
    (3 : Operand).toNat ≤ ({ moving with dp := 3 } : State).dp.toNat ∧
    ({ moving with dp := 3 } : State).pc.toNat < ({ moving with dp := 3 } : State).progLen.toNat := by decide

theorem witness_MoveRightEffect_fault :
    1 ≤ (1 : Operand).toNat ∧ atEdge.dp.toNat + (1 : Operand).toNat ≥ 30000 := by decide
theorem witness_MoveRightEffect_retire : 1 ≤ (29999 : Operand).toNat ∧
    moving.dp.toNat + (29999 : Operand).toNat < 30000 ∧ moving.pc.toNat < moving.progLen.toNat := by decide

theorem witness_IncrementEffect : 1 ≤ (5 : Operand).toNat ∧ Memory.wf counting.mem = true ∧
    counting.dp.toNat < cells ∧ counting.pc.toNat < counting.progLen.toNat := by decide
theorem witness_DecrementEffect : 1 ≤ (536870911 : Operand).toNat ∧ Memory.wf atEdge.mem = true ∧
    atEdge.dp.toNat < cells ∧ atEdge.pc.toNat < atEdge.progLen.toNat := by decide

theorem witness_CellArithmeticLaws : Memory.wf counting.mem = true ∧ counting.dp.toNat < cells ∧
    (1 ≤ (1 : Operand).toNat ∧ (3 : Operand).toNat = (1 : Operand).toNat + (2 : Operand).toNat) ∧
    ((255 : Operand).toNat = (256 - (1 : Operand).toNat % 256) % 256 ∧ (255 : Operand).toNat ≠ 0) ∧
    (1 ≤ (256 : Operand).toNat ∧ (256 : Operand).toNat % 256 = 0) := by decide

theorem witness_ReadByteEffect_wait : starving.input = [] ∧ starving.inputClosed = false := by decide
theorem witness_ReadByteEffect_take : Memory.wf reading.mem = true ∧ reading.dp.toNat < cells ∧
    reading.pc.toNat < reading.progLen.toNat ∧ reading.input = 0x41 :: [] := by decide

theorem witness_ReadByteAtEndOfInput : ∀ p, Memory.wf (ended p).mem = true ∧ (ended p).dp.toNat < cells ∧
    (ended p).pc.toNat < (ended p).progLen.toNat ∧ (ended p).input = [] ∧ (ended p).inputClosed = true ∧
    (ended p).cfg.eofPolicy = p := by
  intro p
  cases p <;> decide

theorem witness_EndOfInputIsSticky_step :
    (ended .storeZero).inRead = .eof ∧ step (ended .storeZero) = .next (after (step (ended .storeZero)) .reset) :=
  ⟨by decide, rfl⟩
theorem witness_EndOfInputIsSticky_host : (ended .fault).inRead = .eof ∧
    hostAct (.supplyByte 1) (ended .fault) = .next (ended .fault) := ⟨by decide, rfl⟩

theorem witness_WaitHoldsEveryPieceOfState :
    starving.executes ∧ starving.current = .readByte 0 ∧ starving.input = [] ∧ starving.inputClosed = false :=
  ⟨executes_of rfl (by decide) (by decide) (by decide), by decide, rfl, rfl⟩

theorem witness_WriteByteEffect :
    writing.dp.toNat < cells ∧ writing.pc.toNat < writing.progLen.toNat := by decide

theorem witness_JumpIfZeroEffect : (looping 0).dp.toNat < cells ∧ (looping 0).pc.toNat < (looping 0).progLen.toNat ∧
    Memory.read (looping 0).mem (looping 0).dp.toNat = 0 ∧
    Memory.read (loopingOn 0).mem (loopingOn 0).dp.toNat ≠ 0 := by decide
theorem witness_JumpIfNonZeroEffect : (looping 1).dp.toNat < cells ∧
    (looping 1).pc.toNat < (looping 1).progLen.toNat ∧
    Memory.read (loopingOn 1).mem (loopingOn 1).dp.toNat ≠ 0 ∧
    Memory.read (looping 1).mem (looping 1).dp.toNat = 0 := by decide

theorem witness_AbsentCellStops : cells ≤ ({ reading with dp := 30000 } : State).dp.toNat ∧
    ({ reading with dp := 30000 } : State).input ≠ [] := by decide

/-- Right to the last cell and back to cell 0. -/
def there : List Instr := [.moveRight 29999, .moveLeft 29999]

theorem witness_MovesAddUp : (∀ i ∈ there, moveBy? i ≠ none) ∧ moving.runState = .run ∧
    ∀ k, 0 ≤ (moving.dp.toNat : Int) + moveSum (there.take k) ∧
      (moving.dp.toNat : Int) + moveSum (there.take k) ≤ 29999 := by
  refine ⟨by decide, rfl, fun k => ?_⟩
  match k with
  | 0 => decide
  | 1 => decide
  | k + 2 =>
    have h : there.take (k + 2) = there := by simp [there]
    rw [h]
    decide

theorem witness_StepRunsDecodedInstruction : counting.executes ∧
    decodeBytes (wordBytes (Imem.read counting.imem counting.pc.toNat)) = .ok (.increment 5, []) :=
  ⟨executes_of rfl (by decide) (by decide) (by decide), rfl⟩

theorem witness_HaltAtProgramEnd : (prog 1 [0x40000005]).active ∧ (prog 1 [0x40000005]).imageWf = true ∧
    (prog 1 [0x40000005]).cancelAsserted = false ∧
    (prog 1 [0x40000005]).progLen.toNat ≤ (prog 1 [0x40000005]).pc.toNat :=
  ⟨.inl rfl, by decide, by decide, by decide⟩

theorem witness_CancelComesFirst_asserted : cancelled.active ∧ cancelled.imageWf = true ∧
    cancelled.cfg.hasCancel = true ∧ cancelled.cancel = true := ⟨.inl rfl, by decide, rfl, rfl⟩
theorem witness_CancelComesFirst_absent : counting.cfg.hasCancel = false ∧
    step counting = .next (after (step counting) .reset) := ⟨rfl, rfl⟩

theorem witness_NoStepOutsideRun : held.runState = .reset ∧
    (after (step State.reset) .reset).runState = .halted ∧ (after (step atEdge) .reset).runState = .faulted := by
  decide

theorem witness_IllFormedImageRefused_length :
    ({ counting with cfg := { Config.reference with imemDepth := 0 } } : State).active ∧
    ({ counting with cfg := { Config.reference with imemDepth := 0 } } : State).cfg.imemDepth.val <
      ({ counting with cfg := { Config.reference with imemDepth := 0 } } : State).progLen.toNat :=
  ⟨.inl rfl, by decide⟩
theorem witness_IllFormedImageRefused_count : (prog 0 [0]).active ∧
    (prog 0 [0]).progLen.toNat ≤ (prog 0 [0]).cfg.imemDepth.val ∧
    ∃ i, i < (prog 0 [0]).progLen.toNat ∧ ((prog 0 [0]).fetch i).wfCount = false :=
  ⟨.inl rfl, by decide, 0, by decide, by decide⟩
theorem witness_IllFormedImageRefused_operand : (prog 0 [0x80000001]).active ∧
    (prog 0 [0x80000001]).progLen.toNat ≤ (prog 0 [0x80000001]).cfg.imemDepth.val ∧
    (∀ i, i < 1 → ((prog 0 [0x80000001]).fetch i).wfCount = true) ∧ (prog 0 [0x80000001]).progLen.toNat = 1 ∧
    ∃ i, i < (prog 0 [0x80000001]).progLen.toNat ∧ ((prog 0 [0x80000001]).fetch i).wfZero = false :=
  ⟨.inl rfl, by decide, by decide, by decide, 0, by decide, by decide⟩
theorem witness_IllFormedImageRefused_pair : (prog 0 [0xC0000001]).active ∧
    (prog 0 [0xC0000001]).progLen.toNat ≤ (prog 0 [0xC0000001]).cfg.imemDepth.val ∧
    (prog 0 [0xC0000001]).progLen.toNat = 1 ∧
    (∀ i, i < 1 → ((prog 0 [0xC0000001]).fetch i).wfCount = true ∧ ((prog 0 [0xC0000001]).fetch i).wfZero = true) ∧
    (prog 0 [0xC0000001]).fetch 0 = .jumpIfZero 1 ∧ ¬ (1 : Operand).toNat < (prog 0 [0xC0000001]).progLen.toNat ∧
    (prog 0 [0xE0000000]).fetch 0 = .jumpIfNonZero 0 ∧ ¬ (0 : Operand).toNat < 0 :=
  ⟨.inl rfl, by decide, by decide, by decide, by decide, by decide, by decide, by decide⟩

theorem witness_EveryStepOfARunAnswers : counting.Inv ∧ counting.active := ⟨counting_inv, .inl rfl⟩

theorem witness_RetireAdvancesPc_zero : (looping 0).Inv ∧
    step (looping 0) = .next (after (step (looping 0)) .reset) ∧
    (after (step (looping 0)) .reset).runState = .run ∧
    (looping 0).current = .jumpIfZero 1 ∧ (looping 0).cell = 0 := ⟨looping_inv, rfl, rfl, by decide, by decide⟩
theorem witness_RetireAdvancesPc_nonZero : (loopingOn 1).Inv ∧
    step (loopingOn 1) = .next (after (step (loopingOn 1)) .reset) ∧
    (after (step (loopingOn 1)) .reset).runState = .run ∧
    (loopingOn 1).current = .jumpIfNonZero 0 ∧ (loopingOn 1).cell ≠ 0 := ⟨loopingOn_inv, rfl, rfl, by decide, by decide⟩
theorem witness_RetireAdvancesPc_through : (loopingOn 0).Inv ∧
    step (loopingOn 0) = .next (after (step (loopingOn 0)) .reset) ∧
    (after (step (loopingOn 0)) .reset).runState = .run ∧
    ∀ u : Operand, ¬ ((loopingOn 0).current = .jumpIfZero u ∧ (loopingOn 0).cell = 0) ∧
      ¬ ((loopingOn 0).current = .jumpIfNonZero u ∧ (loopingOn 0).cell ≠ 0) := by
  have hc : (loopingOn 0).current = .jumpIfZero 1 := by decide
  refine ⟨loopingOn_open_inv, rfl, rfl, fun u => ⟨fun h => absurd h.2 (by decide), fun h => ?_⟩⟩
  rw [hc] at h
  cases h.1

theorem witness_BracketPairIsWhile_open : (looping 0).Inv ∧ (looping 0).executes ∧
    (looping 0).fetch (0 : Operand).toNat = .jumpIfZero 1 ∧ (looping 0).fetch (1 : Operand).toNat = .jumpIfNonZero 0 ∧
    (looping 0).pc.toNat = (0 : Operand).toNat ∧ (looping 0).cell = 0 :=
  ⟨looping_inv, executes_of rfl (by decide) (by decide) (by decide), by decide, by decide, by decide, by decide⟩
theorem witness_BracketPairIsWhile_close : (loopingOn 1).Inv ∧ (loopingOn 1).executes ∧
    (loopingOn 1).fetch (0 : Operand).toNat = .jumpIfZero 1 ∧
    (loopingOn 1).fetch (1 : Operand).toNat = .jumpIfNonZero 0 ∧
    (loopingOn 1).pc.toNat = (1 : Operand).toNat ∧ (loopingOn 1).cell ≠ 0 :=
  ⟨loopingOn_inv, executes_of rfl (by decide) (by decide) (by decide), by decide, by decide, by decide, by decide⟩

theorem witness_StepKeepsInvariant : atEdge.Inv ∧ step atEdge = .next (after (step atEdge) .reset) :=
  ⟨atEdge_inv, rfl⟩

theorem witness_HostActionKeepsInvariant : counting.Inv ∧ hostAct .assertReset counting = .next counting.assertReset :=
  ⟨counting_inv, rfl⟩

theorem witness_ProgramIsImmutable : step counting = .next (after (step counting) .reset) := rfl

theorem witness_DpWrittenOnlyByMoves : step moving = .next (after (step moving) .reset) ∧
    (after (step moving) .reset).dp ≠ moving.dp := ⟨rfl, by decide⟩

theorem witness_CellsWrittenOnlyAtCursor : step counting = .next (after (step counting) .reset) ∧
    Memory.read (after (step counting) .reset).mem 0 ≠ Memory.read counting.mem 0 := ⟨rfl, by decide⟩

theorem witness_OutputOnlyAppended : step writing = .next (after (step writing) .reset) ∧
    (after (step writing) .reset).output ≠ writing.output := ⟨rfl, by decide⟩

theorem witness_InputTakenInOrder : reading.Inv ∧ step reading = .next (after (step reading) .reset) ∧
    (after (step reading) .reset).input ≠ reading.input := ⟨reading_inv, rfl, by decide⟩

theorem witness_FaultsArePrecise : step atEdge = .next (after (step atEdge) .reset) ∧
    (after (step atEdge) .reset).runState = .faulted := ⟨rfl, by decide⟩

theorem witness_FaultCauses_range : atEdge.Inv ∧ step atEdge = .next (after (step atEdge) .reset) ∧
    (after (step atEdge) .reset).faultCause = .cellRangeError := ⟨atEdge_inv, rfl, by decide⟩
theorem witness_FaultCauses_input : (ended .fault).Inv ∧
    step (ended .fault) = .next (after (step (ended .fault)) .reset) ∧
    (after (step (ended .fault)) .reset).faultCause = .inputExhausted := ⟨ended_inv, rfl, by decide⟩
theorem witness_FaultCauses_cancel : cancelled.Inv ∧ step cancelled = .next (after (step cancelled) .reset) ∧
    (after (step cancelled) .reset).faultCause = .cancelled := ⟨cancelled_inv, rfl, by decide⟩

theorem witness_OnlyResetLeavesTheEnd_halted : (after (step State.reset) .reset).finished ∧
    hostAct .releaseReset (after (step State.reset) .reset) = .next (after (step State.reset) .reset) ∧
    HostAction.releaseReset ≠ .assertReset := ⟨rfl, rfl, by decide⟩
theorem witness_OnlyResetLeavesTheEnd_faulted : (after (step atEdge) .reset).failed ∧
    hostAct (.writeImem 0 1) (after (step atEdge) .reset) = .next (after (step atEdge) .reset) ∧
    HostAction.writeImem 0 1 ≠ .assertReset := ⟨rfl, rfl, by decide⟩

theorem witness_ResetAssertAndRelease : held.runState = .reset ∧ held.imageWf = true := by decide

theorem witness_ReleaseAdmitsOnlyWellFormed_refused :
    ({ prog 0 [0] with runState := .reset } : State).runState = .reset ∧
    ({ prog 0 [0] with runState := .reset } : State).imageWf = false := by decide

theorem witness_RunsShareNoState :
    (after (step atEdge) .reset).cfg = moving.cfg ∧ (after (step atEdge) .reset).imem = moving.imem ∧
    (after (step atEdge) .reset).progLen = moving.progLen ∧ (after (step atEdge) .reset).input = moving.input ∧
    (after (step atEdge) .reset).inputClosed = moving.inputClosed ∧
    (after (step atEdge) .reset).cancel = moving.cancel ∧
    hostActs [.assertReset, .releaseReset] moving = .next moving.assertReset.freshRun ∧
    hostActs [.assertReset, .releaseReset] (after (step atEdge) .reset) =
      .next (after (step atEdge) .reset).assertReset.freshRun := ⟨rfl, rfl, rfl, rfl, rfl, rfl, rfl, rfl⟩

theorem witness_HostWritesIgnoredOutsideReset : counting.runState ≠ .reset ∧
    step counting = .next (after (step counting) .reset) ∧
    hostAct .assertReset counting = .next counting.assertReset := ⟨by decide, rfl, rfl⟩

theorem witness_StatusRegisters : held.runState = .reset ∧ (1073741823 : BitVec 32).toNat < 2 ^ 30 ∧ 5 < 6 ∧ 5 ≠ 4 := by
  decide

/-- `+[>]` loads. -/
theorem witness_LoadedImageIsWellFormed :
    load 4 [0x2B, 0x5B, 0x3E, 0x5D] = .ok (image (load 4 [0x2B, 0x5B, 0x3E, 0x5D])) := rfl

/-- `[[]]`: the outer and the inner pair. -/
theorem witness_LoadedPairsNest :
    load 4 [0x5B, 0x5B, 0x5D, 0x5D] = .ok (image (load 4 [0x5B, 0x5B, 0x5D, 0x5D])) ∧
    0 < (image (load 4 [0x5B, 0x5B, 0x5D, 0x5D])).words.length ∧
    1 < (image (load 4 [0x5B, 0x5B, 0x5D, 0x5D])).words.length ∧
    imageFetch (image (load 4 [0x5B, 0x5B, 0x5D, 0x5D])) 0 = .jumpIfZero 3 ∧
    imageFetch (image (load 4 [0x5B, 0x5B, 0x5D, 0x5D])) 1 = .jumpIfZero 2 :=
  ⟨rfl, by decide, by decide, by decide, by decide⟩

theorem witness_CanonicalFormIsTheSource : load 4 [0x2B, 0x61, 0x2B] = .ok (image (load 4 [0x2B, 0x61, 0x2B])) := rfl

/-- `,,`: two neighbours of one opcode. -/
theorem witness_LoadedRunsAreMaximal : load 2 [0x2C, 0x2C] = .ok (image (load 2 [0x2C, 0x2C])) ∧
    0 + 1 < (image (load 2 [0x2C, 0x2C])).words.length ∧
    (imageFetch (image (load 2 [0x2C, 0x2C])) 0).opBits = (imageFetch (image (load 2 [0x2C, 0x2C])) 1).opBits :=
  ⟨rfl, by decide, by decide⟩

/-- `+]`: the first unmatched `]` at offset 1. -/
theorem witness_BracketErrors_unmatched :
    (∀ k, k ≤ 1 → (([0x2B, 0x5D] : List Byte).take k).count 0x5D#8 ≤ (([0x2B, 0x5D] : List Byte).take k).count 0x5B#8) ∧
    (([0x2B, 0x5D] : List Byte).take 2).count 0x5B#8 < (([0x2B, 0x5D] : List Byte).take 2).count 0x5D#8 := by decide
/-- `[` -/
theorem witness_BracketErrors_unclosed :
    (∀ k, (([0x5B] : List Byte).take k).count 0x5D#8 ≤ (([0x5B] : List Byte).take k).count 0x5B#8) ∧
    ([0x5B] : List Byte).count 0x5D#8 < ([0x5B] : List Byte).count 0x5B#8 := by
  refine ⟨fun k => ?_, by decide⟩
  cases k <;> simp
/-- `+` -/
theorem witness_BracketErrors_balanced :
    (∀ k, (([0x2B] : List Byte).take k).count 0x5D#8 ≤ (([0x2B] : List Byte).take k).count 0x5B#8) ∧
    ([0x2B] : List Byte).count 0x5D#8 = ([0x2B] : List Byte).count 0x5B#8 := by
  refine ⟨fun k => ?_, by decide⟩
  cases k <;> simp

theorem witness_OneRunIsOneInstruction : collapses .greater = true ∧ ∀ k,
    ((List.replicate k Operator.greater.byte).filter fun b => (operatorOf? b).isSome) =
      List.replicate k Operator.greater.byte := by
  refine ⟨rfl, fun k => List.filter_eq_self.mpr fun b hb => ?_⟩
  rw [List.eq_of_mem_replicate hb]
  decide

theorem witness_LoadedProgramBoots_error :
    load State.reset.cfg.imemDepth.val [0x5D] = .error (.unmatchedCloseBracket 0) := rfl
theorem witness_LoadedProgramBoots_ok : load 4 [0x2B] = .ok (image (load 4 [0x2B])) ∧
    ({ State.reset with cfg := { Config.reference with imemDepth := 4 } } : State).cfg.imemDepth.val = 4 := ⟨rfl, rfl⟩

end Sys2Proof.Tests
end

section
/-! PROOFS. The scope family (00_scope.md): the tape as the named state operations of R11 see it. -/

namespace Sys2Proof.Machine

/-- Settles O6 by the laws of the sparse store. The canonical form is what makes the read-back hold for a write of 0,
which removes the entry: no later entry may list the same index. -/
theorem cellReadAfterWrite : Obligations.CellReadAfterWrite := fun m a v hwf ha =>
  ⟨Memory.wf_write hwf ha v, Memory.read_write_self hwf a v, fun _ hb => Memory.read_write_ne m v hb⟩

end Sys2Proof.Machine
end

section
/-! PROOFS. The state family (10_state.md): the tape as data, the invariant of the machine, what a step and an action of
the host leave unchanged, reset, and the status registers. -/

namespace Sys2Proof.Machine

/-! ### Canonical stores are determined by what they read as (R27, R56) -/

section Store

variable {α : Type} (d : α) [DecidableEq α]

/-- The canonical form of a nonempty store, taken apart at its first entry. -/
theorem Store.wfFrom_cons {bound lo k : Nat} {x : α} {l : List (Nat × α)} :
    Store.wfFrom d bound lo ((k, x) :: l) = true ↔
      lo ≤ k ∧ k < bound ∧ x ≠ d ∧ Store.wfFrom d bound (k + 1) l = true := by
  simp only [Store.wfFrom, Bool.and_eq_true, decide_eq_true_eq, and_assoc]

/-- An index that reads as a value other than the default is not below the first index of a canonical store. -/
theorem Store.le_of_read_ne {bound lo a : Nat} {l : List (Nat × α)} (h : Store.wfFrom d bound lo l = true)
    (ha : Store.read d l a ≠ d) : lo ≤ a :=
  Nat.le_of_not_lt fun hlt => ha (Store.read_below d h hlt)

/-- The first index of a canonical store is listed in every store that reads alike, so it is not below that store's
first index. -/
theorem Store.head_le_of_read_eq {bound lo k k' : Nat} {x x' : α} {l l' : List (Nat × α)} (hx : x ≠ d)
    (h' : Store.wfFrom d bound lo ((k', x') :: l') = true)
    (hr : Store.read d ((k, x) :: l) k = Store.read d ((k', x') :: l') k) : k' ≤ k := by
  obtain ⟨-, hb, hx', hl'⟩ := (Store.wfFrom_cons d).mp h'
  refine Store.le_of_read_ne d ((Store.wfFrom_cons d).mpr ⟨Nat.le_refl _, hb, hx', hl'⟩) ?_
  rw [← hr, Store.read_cons, if_pos rfl]
  exact hx

/-- Two canonical stores that read alike at every index are the same list. -/
theorem Store.eq_of_read_eq {bound lo : Nat} {l l' : List (Nat × α)} (h : Store.wfFrom d bound lo l = true)
    (h' : Store.wfFrom d bound lo l' = true) (hr : ∀ a, Store.read d l a = Store.read d l' a) : l = l' := by
  induction l generalizing lo l' with
  | nil =>
    cases l' with
    | nil => rfl
    | cons e' l' =>
      obtain ⟨k', x'⟩ := e'
      obtain ⟨-, -, hx', -⟩ := (Store.wfFrom_cons d).mp h'
      have hk := hr k'
      rw [Store.read_nil, Store.read_cons, if_pos rfl] at hk
      exact absurd hk.symm hx'
  | cons e l ih =>
    obtain ⟨k, x⟩ := e
    obtain ⟨-, -, hx, hl⟩ := (Store.wfFrom_cons d).mp h
    cases l' with
    | nil =>
      have hk := hr k
      rw [Store.read_nil, Store.read_cons, if_pos rfl] at hk
      exact absurd hk hx
    | cons e' l' =>
      obtain ⟨k', x'⟩ := e'
      obtain ⟨-, -, hx', hl'⟩ := (Store.wfFrom_cons d).mp h'
      obtain rfl : k = k' := Nat.le_antisymm
        (Store.head_le_of_read_eq d hx' h (hr k').symm) (Store.head_le_of_read_eq d hx h' (hr k))
      have hk := hr k
      rw [Store.read_cons, Store.read_cons, if_pos rfl, if_pos rfl] at hk
      have htail : ∀ a, Store.read d l a = Store.read d l' a := by
        intro a
        have ha := hr a
        rw [Store.read_cons, Store.read_cons] at ha
        by_cases hak : k = a
        · rw [Store.read_below d hl (by omega), Store.read_below d hl' (by omega)]
        · rwa [if_neg hak, if_neg hak] at ha
      rw [hk, ih hl hl' htail]

end Store

/-! ### Run states -/

theorem State.active.ne_reset {s : State} (h : s.active) : s.runState ≠ .reset := by
  rcases h with h | h <;> simp [h]

theorem State.active.ne_faulted {s : State} (h : s.active) : s.runState ≠ .faulted := by
  rcases h with h | h <;> simp [h]

/-- A run that has ended is not held in reset. -/
theorem State.ne_reset_of_ended {s : State} (h : s.finished ∨ s.failed) : s.runState ≠ .reset := by
  rcases h with h | h
  · rw [show s.runState = .halted from h]; decide
  · rw [show s.runState = .faulted from h]; decide

/-! ### Each state operation keeps the invariant -/

theorem State.Inv.setCell {s : State} (h : s.Inv) (v : Byte) : (s.setCell v).Inv :=
  { h with memWf := Memory.wf_write h.memWf h.dpInRange v }

/-- In FAULTED the record equals dp (R32), so dp may be set only where there is no record. -/
theorem State.Inv.setDp {s : State} (h : s.Inv) (hf : s.runState ≠ .faulted) {n : Nat} (hn : n < cells) :
    (s.setDp n).Inv :=
  { h with
    dpInRange := by
      rw [State.setDp_dp, BitVec.toNat_ofNat]
      exact Nat.lt_of_le_of_lt (Nat.mod_le n _) hn
    record := fun hr => absurd hr hf }

theorem State.Inv.takeInput {s : State} (h : s.Inv) : s.takeInput.Inv := { h with }

theorem State.Inv.outWrite {s : State} (h : s.Inv) (b : Byte) : (s.outWrite b).Inv := { h with }

theorem State.Inv.retire {s : State} (h : s.Inv) (ha : s.active) {p : Pc}
    (hp : (p + 1).toNat ≤ s.progLen.toNat) : (s.retire p).Inv :=
  { h with
    admitted := fun _ => h.admitted ha.ne_reset
    pcInRange := fun _ => hp
    waitsAtRead := nofun
    haltedAtEnd := nofun
    noRecord := fun _ => h.noRecord ha.ne_faulted
    record := nofun }

theorem State.Inv.wait {s : State} (h : s.Inv) (ha : s.active) (hp : s.pc.toNat < s.progLen.toNat)
    {x : Operand} (hc : s.current = .readByte x) : s.wait.Inv :=
  { h with
    admitted := fun _ => h.admitted ha.ne_reset
    pcInRange := fun _ => h.pcInRange ha.ne_reset
    waitsAtRead := fun _ => ⟨hp, x, hc⟩
    haltedAtEnd := nofun
    noRecord := fun _ => h.noRecord ha.ne_faulted
    record := nofun }

theorem State.Inv.halt {s : State} (h : s.Inv) (ha : s.active) (hp : s.progLen.toNat ≤ s.pc.toNat) :
    s.halt.Inv :=
  { h with
    admitted := fun _ => h.admitted ha.ne_reset
    pcInRange := fun _ => h.pcInRange ha.ne_reset
    waitsAtRead := nofun
    haltedAtEnd := fun _ => BitVec.eq_of_toNat_eq (Nat.le_antisymm (h.pcInRange ha.ne_reset) hp)
    noRecord := fun _ => h.noRecord ha.ne_faulted
    record := nofun }

theorem State.Inv.enterFault {s : State} (h : s.Inv) (ha : s.active) {c : FaultCause} (hc : c ≠ .none)
    (hcancel : c = .cancelled → s.cfg.hasCancel = true)
    (heof : c = .inputExhausted → s.cfg.eofPolicy = .fault) : (s.enterFault c s.pc s.dp).Inv :=
  { h with
    admitted := fun _ => h.admitted ha.ne_reset
    pcInRange := fun _ => h.pcInRange ha.ne_reset
    waitsAtRead := nofun
    haltedAtEnd := nofun
    noRecord := fun hn => absurd rfl hn
    record := fun _ => ⟨hc, rfl, rfl⟩
    cancelBacked := hcancel
    eofBacked := heof }

theorem State.Inv.assertReset {s : State} (h : s.Inv) : s.assertReset.Inv :=
  { h with
    admitted := fun hn => absurd rfl hn
    pcInRange := fun hn => absurd rfl hn
    waitsAtRead := nofun
    haltedAtEnd := nofun
    noRecord := fun _ => ⟨rfl, rfl, rfl⟩
    record := nofun
    cancelBacked := nofun
    eofBacked := nofun }

/-- A run starts in the invariant: release needs no more than a WF image in canonical form. -/
theorem State.inv_freshRun {s : State} (hi : Imem.wf s.cfg.imemDepth.val s.imem = true)
    (hw : s.imageWf = true) : s.freshRun.Inv where
  memWf := rfl
  imemWf := hi
  dpInRange := by rw [State.freshRun_dp]; decide
  admitted := fun _ => hw
  pcInRange := fun _ => Nat.zero_le _
  waitsAtRead := nofun
  haltedAtEnd := nofun
  noRecord := fun _ => ⟨rfl, rfl, rfl⟩
  record := nofun
  cancelBacked := nofun
  eofBacked := nofun

/-- In RESET the invariant says nothing of the image, so the host may load any word. -/
theorem State.Inv.writeImem {s : State} (h : s.Inv) (hr : s.runState = .reset) {i : Nat}
    (hi : i < s.cfg.imemDepth.val) (w : Word) : ({ s with imem := Imem.write s.imem i w } : State).Inv :=
  { h with
    imemWf := Imem.wf_write h.imemWf hi w
    admitted := fun hn => absurd hr hn
    waitsAtRead := fun hw => absurd (hr.symm.trans hw) nofun }

/-- In RESET the invariant says nothing of PROG_LEN, so the host may load any length. -/
theorem State.Inv.writeProgLen {s : State} (h : s.Inv) (hr : s.runState = .reset) (n : Pc) :
    ({ s with progLen := n } : State).Inv :=
  { h with
    admitted := fun hn => absurd hr hn
    pcInRange := fun hn => absurd hr hn
    waitsAtRead := fun hw => absurd (hr.symm.trans hw) nofun
    haltedAtEnd := fun hh => absurd (hr.symm.trans hh) nofun }

/-! ### pc stays in 0..N (R24) -/

/-- The index after an executing instruction is at most N. -/
theorem State.executes.pc_succ_le {s : State} (h : s.executes) : (s.pc + 1).toNat ≤ s.progLen.toNat := by
  obtain ⟨-, -, -, hp⟩ := h
  rw [pc_succ_toNat (by omega)]
  exact hp

/-- The pair check holds of an executing instruction (R113, R115). -/
theorem State.executes.wfPair {s : State} (h : s.executes) :
    s.current.wfPair s.fetch s.progLen.toNat s.pc.toNat = true := by
  obtain ⟨-, hw, -, hp⟩ := h
  obtain ⟨-, hall⟩ := wfImage_eq_true.mp hw
  obtain ⟨-, -, hpair⟩ := hall _ hp
  exact hpair

/-- The index after the target of an executing JumpIfZero is at most N. -/
theorem State.executes.zeroTarget_succ_le {s : State} (h : s.executes) {u : Operand}
    (hc : s.current = .jumpIfZero u) : (targetOf u + 1).toNat ≤ s.progLen.toNat := by
  obtain ⟨-, hlt, -⟩ := wfPair_jumpIfZero.mp (hc ▸ h.wfPair)
  rw [targetOf_succ_toNat]
  exact hlt

/-- The index after the target of an executing JumpIfNonZero is at most N, for the target is below pc. -/
theorem State.executes.nonZeroTarget_succ_le {s : State} (h : s.executes) {u : Operand}
    (hc : s.current = .jumpIfNonZero u) : (targetOf u + 1).toNat ≤ s.progLen.toNat := by
  obtain ⟨hlt, -⟩ := wfPair_jumpIfNonZero.mp (hc ▸ h.wfPair)
  obtain ⟨-, -, -, hp⟩ := h
  rw [targetOf_succ_toNat]
  omega

/-! ### What every instruction keeps -/

/-- An executing instruction keeps the invariant. -/
theorem Effect.inv {s t : State} {i : Instr} (he : Effect s i t) (h : s.Inv) (hx : s.executes)
    (hc : s.current = i) : t.Inv := by
  obtain ⟨ha, -, -, hp⟩ := id hx
  cases he with
  | leftOut n hn => exact h.enterFault ha nofun nofun nofun
  | left n hn => exact (h.setDp ha.ne_faulted (Nat.lt_of_le_of_lt (Nat.sub_le _ _) h.dpInRange)).retire ha hx.pc_succ_le
  | rightOut n hn => exact h.enterFault ha nofun nofun nofun
  | right n hn => exact (h.setDp ha.ne_faulted hn).retire ha hx.pc_succ_le
  | inc n hd => exact (h.setCell _).retire ha hx.pc_succ_le
  | dec n hd => exact (h.setCell _).retire ha hx.pc_succ_le
  | readWait x hi hcl => exact h.wait ha hp hc
  | readTake x b rest hi hd => exact (h.takeInput.setCell b).retire ha hx.pc_succ_le
  | readFault x hi hcl hpol => exact h.enterFault ha nofun nofun fun _ => hpol
  | readZero x hi hcl hpol hd => exact (h.setCell 0).retire ha hx.pc_succ_le
  | readKeep x hi hcl hpol => exact h.retire ha hx.pc_succ_le
  | write x hd => exact (h.outWrite _).retire ha hx.pc_succ_le
  | zeroTaken u hd hz => exact h.retire ha (hx.zeroTarget_succ_le hc)
  | zeroThrough u hd hz => exact h.retire ha hx.pc_succ_le
  | nonZeroTaken u hd hz => exact h.retire ha (hx.nonZeroTarget_succ_le hc)
  | nonZeroThrough u hd hz => exact h.retire ha hx.pc_succ_le

/-- No instruction changes the program, the parameters, the cancel level or the close of the input stream. -/
theorem Effect.program_frame {s t : State} {i : Instr} (he : Effect s i t) :
    SameProgram s t ∧ t.cancel = s.cancel ∧ t.inputClosed = s.inputClosed := by
  cases he <;> exact ⟨⟨rfl, rfl, rfl⟩, rfl, rfl⟩

/-- An instruction that is no move leaves dp as it was (R22). -/
theorem Effect.dp_eq_or_move {s t : State} {i : Instr} (he : Effect s i t) :
    t.dp = s.dp ∨ ∃ n, i = .moveLeft n ∨ i = .moveRight n := by
  cases he with
  | left n h => exact .inr ⟨n, .inl rfl⟩
  | right n h => exact .inr ⟨n, .inr rfl⟩
  | _ => exact .inl rfl

/-! ### Reset release -/

/-- Release from RESET starts a fresh run on a WF image and on no other (R115, R230). -/
theorem hostAct_releaseReset_eq_next {s t : State} (hr : s.runState = .reset) :
    hostAct .releaseReset s = .next t ↔ s.imageWf = true ∧ t = s.freshRun := by
  rw [← State.admission_eq_none]
  simp only [hostAct, State.releaseReset, hr]
  cases s.admission with
  | none => simp [eq_comm]
  | some r => simp

/-- A sequence of actions answers a next state when its first does and the rest does from there. -/
theorem hostActs_cons_eq_next {a : HostAction} {rest : List HostAction} {s t : State} :
    hostActs (a :: rest) s = .next t ↔ ∃ u, hostAct a s = .next u ∧ hostActs rest u = .next t := by
  rw [hostActs]
  cases hostAct a s <;> simp

/-- A reset cycle that answers a next state answers a fresh run. -/
theorem eq_freshRun_of_resetCycle {s t : State} (h : hostActs [.assertReset, .releaseReset] s = .next t) :
    t = s.assertReset.freshRun := by
  obtain ⟨u, hassert, hrest⟩ := hostActs_cons_eq_next.mp h
  obtain ⟨w, hrelease, hnil⟩ := hostActs_cons_eq_next.mp hrest
  cases hassert
  cases hnil
  obtain ⟨-, hfresh⟩ := (hostAct_releaseReset_eq_next rfl).mp hrelease
  exact hfresh

/-- What a run starts from is fixed by the parameters, the program and what the host owns (R37, R232). -/
theorem freshRun_assertReset_congr {s s' : State} (hcfg : s'.cfg = s.cfg) (himem : s'.imem = s.imem)
    (hlen : s'.progLen = s.progLen) (hin : s'.input = s.input) (hclosed : s'.inputClosed = s.inputClosed)
    (hcancel : s'.cancel = s.cancel) : s.assertReset.freshRun = s'.assertReset.freshRun := by
  simp only [State.freshRun, State.assertReset, hcfg, himem, hlen, hin, hclosed, hcancel]

/-! ### Status registers -/

/-- CONFIG holds HAS_CANCEL above the two bits of EOF_POLICY (R33). -/
theorem configCode_toNat (c : Config) :
    (configCode c).toNat = (if c.hasCancel then 4 else 0) + (eofPolicyCode c.eofPolicy).toNat := by
  unfold configCode
  cases c.hasCancel <;> cases c.eofPolicy <;> decide

/-- A host write to one of the five read-only status registers is ignored in every run state (R33). -/
theorem hostAct_writeStatus_readOnly (s : State) (v : BitVec 32) {k : Nat} (hk : k < 6) (hne : k ≠ 4) :
    hostAct (.writeStatus k v) s = .next s := by
  match k, hk, hne with
  | 0, _, _ => rfl
  | 1, _, _ => rfl
  | 2, _, _ => rfl
  | 3, _, _ => rfl
  | 5, _, _ => rfl

/-- In RESET a host write to PROG_LEN takes its low 30 bits (R33). -/
theorem hostAct_writeStatus_progLen {s : State} (hr : s.runState = .reset) (v : BitVec 32) :
    hostAct (.writeStatus 4 v) s = .next { s with progLen := v.setWidth 30 } := if_pos hr

/-! ### The statements -/

/-- Settles O31: of the three things a step can do, fault entry and halt keep the invariant as state operations, and an
instruction keeps it by its effect. -/
theorem stepKeepsInvariant : Obligations.StepKeepsInvariant := by
  intro s t h hstep
  obtain ⟨ha, -, hcancel, -, rfl⟩ | ⟨ha, -, -, hp, rfl⟩ | ⟨hx, i, hc, he⟩ := step_cases hstep
  · exact h.enterFault ha nofun (fun _ => hcancel) nofun
  · exact h.halt ha hp
  · exact he.inv h hx hc

/-- Settles O7: the canonical form lists exactly the nonzero cells, in one order. -/
theorem equalTapesAreEqualData : Obligations.EqualTapesAreEqualData := fun _ _ h h' hr =>
  Store.eq_of_read_eq 0 h h' hr

/-- Settles O32: assertion and release set what the invariant speaks of, the writes of the program land in RESET, where
it asks nothing of them, and the other actions touch only what it does not mention. -/
theorem hostActionKeepsInvariant : Obligations.HostActionKeepsInvariant := by
  intro a s t h hact
  obtain ⟨-, rfl⟩ | ⟨-, -, hw, rfl⟩ | ⟨i, w, -, hr, hi, rfl⟩ | ⟨v, -, hr, rfl⟩ | ⟨b, -, -, rfl⟩ | ⟨-, rfl⟩ |
    ⟨l, -, -, rfl⟩ | ⟨-, rfl⟩ := hostAct_cases hact
  · exact h.assertReset
  · exact State.inv_freshRun h.imemWf hw
  · exact h.writeImem hr hi w
  · exact h.writeProgLen hr _
  · exact { h with }
  · exact { h with }
  · exact { h with }
  · exact h

/-- Settles O33: cancel and halt change no field it names, and neither does an instruction. -/
theorem programIsImmutable : Obligations.ProgramIsImmutable := by
  intro s t hstep
  obtain ⟨-, -, -, -, rfl⟩ | ⟨-, -, -, -, rfl⟩ | ⟨-, i, -, he⟩ := step_cases hstep
  · exact ⟨⟨rfl, rfl, rfl⟩, rfl, rfl⟩
  · exact ⟨⟨rfl, rfl, rfl⟩, rfl, rfl⟩
  · exact he.program_frame

/-- Settles O34: only an instruction can change dp in a step, and of the instructions only a move. -/
theorem dpWrittenOnlyByMoves : Obligations.DpWrittenOnlyByMoves := by
  intro s t hstep hdp
  obtain ⟨-, -, -, -, rfl⟩ | ⟨-, -, -, -, rfl⟩ | ⟨hx, i, rfl, he⟩ := step_cases hstep
  · exact absurd rfl hdp
  · exact absurd rfl hdp
  · exact ⟨hx, he.dp_eq_or_move.resolve_left hdp⟩

/-- Settles O40: after the end of a run RUN_STATE is not RESET, so release and the writes of the program are ignored,
and what the host's other actions set is its own. -/
theorem onlyResetLeavesTheEnd : Obligations.OnlyResetLeavesTheEnd := by
  intro a s t hend hact hne
  have hnr := State.ne_reset_of_ended hend
  obtain ⟨ha, -⟩ | ⟨-, hr, -⟩ | ⟨i, w, -, hr, -⟩ | ⟨v, -, hr, -⟩ | ⟨b, -, -, rfl⟩ | ⟨-, rfl⟩ |
    ⟨l, -, -, rfl⟩ | ⟨-, rfl⟩ := hostAct_cases hact
  · exact absurd ha hne
  · exact absurd hr hnr
  · exact absurd hr hnr
  · exact absurd hr hnr
  all_goals exact ⟨rfl, ⟨rfl, rfl, rfl⟩, rfl, rfl, rfl, rfl⟩

/-- Settles O43: both machines are in the fresh run that the shared fields fix. -/
theorem runsShareNoState : Obligations.RunsShareNoState := by
  intro s s' t t' hcfg himem hlen hin hclosed hcancel h h'
  rw [eq_freshRun_of_resetCycle h, eq_freshRun_of_resetCycle h']
  exact freshRun_assertReset_congr hcfg himem hlen hin hclosed hcancel

/-- Settles O20 by the cell operand's own stop; a ReadByte meets it once its byte has been answered. -/
theorem absentCellStops : Obligations.AbsentCellStops := by
  intro x s hd
  simp only [exec, execIncrement, execDecrement, execWriteByte, execJumpIfZero, execJumpIfNonZero,
    State.withCell_of_ge hd, true_and]
  intro hne
  obtain ⟨b, rest, hi⟩ := List.exists_cons_of_ne_nil hne
  simp only [execReadByte, State.inRead_cons hi, State.withCell_of_ge hd]

/-- Settles O30: the reset state is a fresh run of the empty program. -/
theorem resetMeetsInvariant : Obligations.ResetMeetsInvariant :=
  State.inv_freshRun (s := State.reset) (Imem.wf_nil _) (by decide)

/-- Settles O41: the state after assertion and the fresh run after release, field by field. -/
theorem resetAssertAndRelease : Obligations.ResetAssertAndRelease :=
  ⟨fun s => ⟨s.assertReset, rfl, rfl, rfl, ⟨rfl, rfl, rfl⟩⟩,
    fun s hr hw => ⟨s.freshRun, (hostAct_releaseReset_eq_next hr).mpr ⟨hw, rfl⟩, Memory.read_nil, rfl, rfl, rfl, rfl,
      rfl, rfl, rfl, ⟨rfl, rfl, rfl⟩, rfl, rfl⟩⟩

/-- Settles O45, register by register: a code read by the host keeps its value, for 32 bits are wider than each. -/
theorem statusRegisters : Obligations.StatusRegisters := by
  intro s v
  refine ⟨⟨_, rfl, ?_⟩, ⟨_, rfl, ?_⟩, ⟨_, rfl, BitVec.toNat_setWidth_of_le (by decide)⟩,
    ⟨_, rfl, BitVec.toNat_setWidth_of_le (by decide)⟩, ⟨_, rfl, BitVec.toNat_setWidth_of_le (by decide)⟩,
    ⟨_, rfl, ?_⟩, fun k hk hne => hostAct_writeStatus_readOnly s v hk hne, fun hr hv => ?_⟩
  · cases s.runState <;> decide
  · cases s.faultCause <;> decide
  · rw [BitVec.toNat_setWidth_of_le (by decide), configCode_toNat]
    cases s.cfg.eofPolicy <;> rfl
  · refine ⟨_, hostAct_writeStatus_progLen hr v, ?_, rfl, rfl⟩
    rw [BitVec.toNat_setWidth, Nat.mod_eq_of_lt hv]

end Sys2Proof.Machine
end

section
/-! PROOFS. The memory family (20_memory.md): what a step may write of the tape and of the output channel. -/

namespace Sys2Proof.Machine

/-! ### What an instruction writes -/

/-- An instruction leaves the tape as it was, or it is an Increment, a Decrement or a ReadByte and writes once, at the
cursor as it stood before the step (R50, R51). -/
theorem Effect.mem_eq_or_write {s t : State} {i : Instr} (he : Effect s i t) :
    t.mem = s.mem ∨ (∃ v, t.mem = Memory.write s.mem s.dp.toNat v) ∧
      ∃ n, i = .increment n ∨ i = .decrement n ∨ i = .readByte n := by
  cases he with
  | inc n hd => exact .inr ⟨⟨_, rfl⟩, n, .inl rfl⟩
  | dec n hd => exact .inr ⟨⟨_, rfl⟩, n, .inr (.inl rfl)⟩
  | readTake x b rest hi hd => exact .inr ⟨⟨b, rfl⟩, x, .inr (.inr rfl)⟩
  | readZero x hi hcl hpol hd => exact .inr ⟨⟨0, rfl⟩, x, .inr (.inr rfl)⟩
  | _ => exact .inl rfl

/-- An instruction leaves the output as it was, or it is a WriteByte and appends the cell at the cursor (R174). -/
theorem Effect.output_eq_or_append {s t : State} {i : Instr} (he : Effect s i t) :
    t.output = s.output ∨ (∃ x, i = .writeByte x) ∧ t.output = s.output ++ [s.cell] := by
  cases he with
  | write x hd => exact .inr ⟨⟨x, rfl⟩, rfl⟩
  | _ => exact .inl rfl

/-- A write to the tape can change only the cell it is addressed to. -/
theorem Memory.eq_of_read_write_ne {m : Memory} {a b : Nat} {v : Byte}
    (h : Memory.read (Memory.write m a v) b ≠ Memory.read m b) : b = a :=
  Decidable.not_imp_comm.mp (Memory.read_write_ne m v) h

/-! ### The statements -/

/-- Settles O35: cancel and halt leave the tape as it was, and an instruction that does not writes only at the cursor. -/
theorem cellsWrittenOnlyAtCursor : Obligations.CellsWrittenOnlyAtCursor := by
  intro s t a hstep hread
  obtain ⟨-, -, -, -, rfl⟩ | ⟨-, -, -, -, rfl⟩ | ⟨hx, i, rfl, he⟩ := step_cases hstep
  · exact absurd rfl hread
  · exact absurd rfl hread
  · obtain hmem | ⟨⟨v, hmem⟩, hwriter⟩ := he.mem_eq_or_write
    · exact absurd (congrArg (Memory.read · a) hmem) hread
    · exact ⟨Memory.eq_of_read_write_ne (hmem ▸ hread), hx, hwriter⟩

/-- Settles O36: cancel and halt write no byte, and of the instructions only a WriteByte does. -/
theorem outputOnlyAppended : Obligations.OutputOnlyAppended := by
  intro s t hstep
  obtain ⟨-, -, -, -, rfl⟩ | ⟨-, -, -, -, rfl⟩ | ⟨hx, i, rfl, he⟩ := step_cases hstep
  · exact .inl rfl
  · exact .inl rfl
  · exact he.output_eq_or_append.imp_right fun happend => ⟨hx, happend⟩

end Sys2Proof.Machine
end

section
/-! PROOFS. The encoding family (30_encoding.md): the fields of an instruction word, the rows of the opcode map, the
bytes of an image, and the refusal of an image that is not WF. -/

namespace Sys2Proof

/-! ### The decoder and the encoder by the two fields of a word (R72 to R75) -/

theorem opField_encode (i : Instr) : opField (encode i) = i.opBits := opField_append _ _

theorem operandField_encode (i : Instr) : operandField (encode i) = i.operand := operandField_append _ _

/-- The three bits `decode` branches on are the whole op field. -/
theorem ofBool_bits (op : BitVec 3) :
    BitVec.ofBool (op.getLsbD 2) ++ BitVec.ofBool (op.getLsbD 1) ++ BitVec.ofBool (op.getLsbD 0) = op := by
  decide +revert

/-- Every op value is the one of the row `decode` takes for it (R73). -/
theorem opBits_decode (w : Word) : (decode w).opBits = opField w := by
  unfold decode
  split <;> next h2 h1 h0 => rw [← ofBool_bits (opField w), h2, h1, h0]; rfl

theorem operand_decode (w : Word) : (decode w).operand = operandField w := by
  unfold decode
  split <;> rfl

theorem encode_decode (w : Word) : encode (decode w) = w := by
  unfold encode
  rw [opBits_decode, operand_decode, append_fields]

theorem decode_encode (i : Instr) : decode (encode i) = i := by
  unfold decode
  rw [opField_encode, operandField_encode]
  cases i <;> simp [Instr.opBits, Instr.operand]

/-- A word is the encoding of one instruction only, the one it decodes to. -/
theorem encode_eq_iff {i : Instr} {w : Word} : encode i = w ↔ decode w = i :=
  ⟨fun h => h ▸ decode_encode i, fun h => h ▸ encode_decode w⟩

/-- A word written for an instruction is read as that instruction. -/
theorem encode_and_decode {i : Instr} {w : Word} (h : encode i = w) : encode i = w ∧ decode w = i :=
  ⟨h, encode_eq_iff.mp h⟩

/-- An instruction's two fields determine it. -/
theorem decode_eq_iff_fields {i : Instr} {w : Word} :
    decode w = i ↔ opField w = i.opBits ∧ operandField w = i.operand := by
  constructor
  · rintro rfl
    exact ⟨(opBits_decode w).symm, (operand_decode w).symm⟩
  · rintro ⟨hop, hx⟩
    rw [← encode_eq_iff, encode, ← hop, ← hx, append_fields]

/-! ### Matching a row of the opcode map (R73) -/

/-- The mask of six of the rows keeps the op field and clears the operand. -/
theorem and_opMask (w : Word) : w &&& 0xE0000000#32 = opField w ++ 0#29 := by
  have hmask : 0xE0000000#32 = (BitVec.allOnes 3 ++ 0#29 : BitVec (3 + 29)) := by decide
  conv => lhs; rw [← append_fields w, hmask]
  rw [BitVec.and_append, BitVec.and_allOnes, BitVec.and_zero]

theorem append_zero_inj {op op' : BitVec 3} : (op ++ 0#29 : BitVec (3 + 29)) = op' ++ 0#29 ↔ op = op' :=
  ⟨fun h => by rw [← opField_append op 0#29, h, opField_append], fun h => h ▸ rfl⟩

/-- A row whose mask is the op field: its match is the row's op value above a zero operand. -/
theorem and_opMask_eq_iff {w m : Word} {i : Instr} (op : BitVec 3) (hm : op ++ 0#29 = m) (hop : i.opBits = op)
    (hx : operandField w = i.operand) : w &&& 0xE0000000#32 = m ↔ decode w = i := by
  rw [and_opMask, ← hm, ← hop, append_zero_inj, decode_eq_iff_fields, and_iff_left hx]

/-- A row whose mask is the whole word: its match is the encoding of its instruction. -/
theorem and_fullMask_eq_iff {w m : Word} {i : Instr} (hm : encode i = m) :
    w &&& 0xFFFFFFFF#32 = m ↔ decode w = i := by
  have hmask : 0xFFFFFFFF#32 = BitVec.allOnes 32 := by decide
  rw [hmask, BitVec.and_allOnes, ← hm, eq_comm, encode_eq_iff]

/-! ### The bytes of a word and of an image (R53, R79) -/

theorem decodeBytes_wordBytes_append (w : Word) (rest : List Byte) :
    decodeBytes (wordBytes w ++ rest) = .ok (decode w, rest) :=
  congrArg (fun w => Except.ok (decode w, rest)) (wordOfBytes_of_word w)

theorem imageOfBytes_wordBytes_append (w : Word) (rest : List Byte) :
    imageOfBytes (wordBytes w ++ rest) = (imageOfBytes rest).map (w :: ·) :=
  congrArg (fun w => (imageOfBytes rest).map (w :: ·)) (wordOfBytes_of_word w)

theorem wordBytes_length (w : Word) : (wordBytes w).length = 4 := rfl

theorem wordBytes_getElem? (w : Word) {j : Nat} (hj : j < 4) :
    (wordBytes w)[j]? = some (w.extractLsb' (8 * j) 8) := by
  match j, hj with
  | 0, _ => rfl
  | 1, _ => rfl
  | 2, _ => rfl
  | 3, _ => rfl

theorem imageBytes_cons (w : Word) (ws : List Word) : imageBytes (w :: ws) = wordBytes w ++ imageBytes ws := rfl

theorem imageBytes_length (ws : List Word) : (imageBytes ws).length = 4 * ws.length := by
  induction ws with
  | nil => rfl
  | cons w ws ih =>
    rw [imageBytes_cons, List.length_append, wordBytes_length, ih, List.length_cons]
    omega

theorem imageBytes_getElem? {ws : List Word} {i j : Nat} {w : Word} (hj : j < 4) (hw : ws[i]? = some w) :
    (imageBytes ws)[4 * i + j]? = some (w.extractLsb' (8 * j) 8) := by
  induction ws generalizing i with
  | nil => simp at hw
  | cons v ws ih =>
    rw [imageBytes_cons]
    cases i with
    | zero =>
      obtain rfl : v = w := by simpa using hw
      rw [Nat.mul_zero, Nat.zero_add, List.getElem?_append_left hj, wordBytes_getElem? v hj]
    | succ i =>
      have hoff : 4 * (i + 1) + j - (wordBytes v).length = 4 * i + j := by rw [wordBytes_length]; omega
      rw [List.getElem?_append_right (by rw [wordBytes_length]; omega), hoff]
      exact ih (by simpa using hw)

theorem imageOfBytes_imageBytes (ws : List Word) : imageOfBytes (imageBytes ws) = .ok ws := by
  induction ws with
  | nil => rfl
  | cons w ws ih =>
    rw [imageBytes_cons, imageOfBytes_wordBytes_append, ih]
    rfl

/-! ### The targets of the jumps -/

theorem Instr.zeroTarget?_eq_some {i : Instr} {k : Nat} :
    i.zeroTarget? = some k ↔ ∃ u : Operand, u.toNat = k ∧ i = .jumpIfZero u := by
  cases i <;> simp [Instr.zeroTarget?]

theorem Instr.nonZeroTarget?_eq_some {i : Instr} {k : Nat} :
    i.nonZeroTarget? = some k ↔ ∃ u : Operand, u.toNat = k ∧ i = .jumpIfNonZero u := by
  cases i <;> simp [Instr.nonZeroTarget?]

end Sys2Proof

namespace Sys2Proof.Machine

/-! ### The first failing check of an image names the refusal (R115) -/

theorem allBelow_eq_false {p : Nat → Bool} {n : Nat} : allBelow p n = false ↔ ∃ i, i < n ∧ p i = false := by
  rw [← Bool.not_eq_true, allBelow_eq_true]
  simp

section CheckImage

variable {depth n : Nat} {fetch : Nat → Instr}

theorem checkImage_eq_imageTooLong (hlen : depth < n) : checkImage depth fetch n = some .imageTooLong := by
  have hl : wfLen depth n = false := decide_eq_false (Nat.not_le.mpr hlen)
  simp [checkImage, hl]

theorem checkImage_eq_countZero (hlen : n ≤ depth) (h : ∃ i, i < n ∧ (fetch i).wfCount = false) :
    checkImage depth fetch n = some .countZero := by
  have hl : wfLen depth n = true := decide_eq_true hlen
  have hc : wfCountAll fetch n = false := allBelow_eq_false.mpr h
  simp [checkImage, hl, hc]

theorem checkImage_eq_operandNotZero (hlen : n ≤ depth) (hcount : ∀ i, i < n → (fetch i).wfCount = true)
    (h : ∃ i, i < n ∧ (fetch i).wfZero = false) : checkImage depth fetch n = some .operandNotZero := by
  have hl : wfLen depth n = true := decide_eq_true hlen
  have hc : wfCountAll fetch n = true := wfCountAll_eq_true.mpr hcount
  have hz : wfZeroAll fetch n = false := allBelow_eq_false.mpr h
  simp [checkImage, hl, hc, hz]

theorem checkImage_eq_bracketsNotPaired (hlen : n ≤ depth) (hcount : ∀ i, i < n → (fetch i).wfCount = true)
    (hzero : ∀ i, i < n → (fetch i).wfZero = true) (h : ∃ i, i < n ∧ (fetch i).wfPair fetch n i = false) :
    checkImage depth fetch n = some .bracketsNotPaired := by
  have hl : wfLen depth n = true := decide_eq_true hlen
  have hc : wfCountAll fetch n = true := wfCountAll_eq_true.mpr hcount
  have hz : wfZeroAll fetch n = true := wfZeroAll_eq_true.mpr hzero
  have hp : wfPairAll fetch n = false := allBelow_eq_false.mpr h
  simp [checkImage, hl, hc, hz, hp]

/-- A JumpIfZero fails the pair check exactly where no JumpIfNonZero above it, at its target, names it (R113). -/
theorem wfPair_jumpIfZero_eq_false {i : Nat} {t : Operand} :
    (Instr.jumpIfZero t).wfPair fetch n i = false ↔
      ¬ (i < t.toNat ∧ t.toNat < n ∧ ∃ u : Operand, u.toNat = i ∧ fetch t.toNat = .jumpIfNonZero u) := by
  rw [← Bool.not_eq_true, wfPair_jumpIfZero, Instr.nonZeroTarget?_eq_some]

/-- A JumpIfNonZero fails the pair check exactly where no JumpIfZero below it, at its target, names it (R113). -/
theorem wfPair_jumpIfNonZero_eq_false {i : Nat} {t : Operand} :
    (Instr.jumpIfNonZero t).wfPair fetch n i = false ↔
      ¬ (t.toNat < i ∧ ∃ u : Operand, u.toNat = i ∧ fetch t.toNat = .jumpIfZero u) := by
  rw [← Bool.not_eq_true, wfPair_jumpIfNonZero, Instr.zeroTarget?_eq_some]

end CheckImage

/-- While the run is not over, the step answers the refusal of the image. -/
theorem step_of_admission_eq_some {s : State} {r : Refusal} (ha : s.active) (h : s.admission = some r) :
    step s = .refused r := by
  have hg : s.guardedStep = .refused r := by simp only [State.guardedStep, h]
  rcases ha with hr | hr <;> simp [step, State.stepByRunState, hr, hg]

/-! ### The statements -/

/-- Settles O3: the two fields of the word written are the instruction's own, and its four bytes give the word back. -/
theorem decodeOfEncode : Obligations.DecodeOfEncode := by
  intro i rest
  refine ⟨decode_encode i, ?_⟩
  rw [encodeBytes, decodeBytes_wordBytes_append, decode_encode]

/-- Settles O2: the mask of a row leaves the op field, or for ReadByte and WriteByte the whole word. -/
theorem wordSelectsRow : Obligations.WordSelectsRow := fun _ =>
  ⟨and_opMask_eq_iff 0b000#3 (by decide) rfl rfl, and_opMask_eq_iff 0b001#3 (by decide) rfl rfl,
    and_opMask_eq_iff 0b010#3 (by decide) rfl rfl, and_opMask_eq_iff 0b011#3 (by decide) rfl rfl,
    and_fullMask_eq_iff (by decide), and_fullMask_eq_iff (by decide),
    and_opMask_eq_iff 0b110#3 (by decide) rfl rfl, and_opMask_eq_iff 0b111#3 (by decide) rfl rfl⟩

/-- Settles O4: decode and encode are inverse to each other. -/
theorem encodeOfDecode : Obligations.EncodeOfDecode := fun w =>
  ⟨encode_decode w, fun _ h => (encode_eq_iff.mp h).symm⟩

/-- Settles O5, by induction on the words of the image, each of which adds its four bytes in front. -/
theorem imageBytesLayout : Obligations.ImageBytesLayout := fun ws =>
  ⟨imageBytes_length ws, fun _ _ _ hj hw => imageBytes_getElem? hj hw, imageOfBytes_imageBytes ws⟩

/-- Settles O26: the step answers the image's refusal, which is the first failing check's. -/
theorem illFormedImageRefused : Obligations.IllFormedImageRefused := by
  intro s ha
  refine ⟨fun hlen => ?_, fun hlen h => ?_, fun hlen hcount h => ?_, fun hlen hwf h => ?_⟩ <;>
    apply step_of_admission_eq_some ha
  · exact checkImage_eq_imageTooLong hlen
  · exact checkImage_eq_countZero hlen h
  · exact checkImage_eq_operandNotZero hlen hcount h
  · refine checkImage_eq_bracketsNotPaired hlen (fun i hi => (hwf i hi).1) (fun i hi => (hwf i hi).2) ?_
    obtain ⟨i, t, hi, ⟨hf, hpair⟩ | ⟨hf, hpair⟩⟩ := h
    · exact ⟨i, hi, hf ▸ wfPair_jumpIfZero_eq_false.mpr hpair⟩
    · exact ⟨i, hi, hf ▸ wfPair_jumpIfNonZero_eq_false.mpr hpair⟩

/-- Settles O1: the words are computed by encode, and decode reads each one back. -/
theorem workedEncodings : Obligations.WorkedEncodings :=
  ⟨encode_and_decode (by decide), encode_and_decode (by decide), encode_and_decode (by decide),
    encode_and_decode (by decide), encode_and_decode (by decide), encode_and_decode (by decide),
    encode_and_decode (by decide)⟩

end Sys2Proof.Machine
end

section
/-! PROOFS. The loader family (40_loader.md): the image of a finished pass, its canonical form, comments, bracket
errors, one run, and reset release on an image. -/

namespace Sys2Proof

/-! ### The instruction of a loader term (R70, R118) -/

theorem LoadTerm.opBits_instr_inj {x y : LoadTerm} : x.instr.opBits = y.instr.opBits ↔ x.op = y.op := by
  obtain ⟨op, a⟩ := x
  obtain ⟨op', a'⟩ := y
  cases op <;> cases op' <;> simp [LoadTerm.instr, Instr.opBits]

theorem LoadTerm.zeroTarget?_instr {x : LoadTerm} (hx : x.arg < 2 ^ 29) {t : Nat} :
    x.instr.zeroTarget? = some t ↔ x = ⟨.openBracket, t⟩ := by
  obtain ⟨op, a⟩ := x
  cases op <;> simp_all [LoadTerm.instr, Instr.zeroTarget?, Nat.mod_eq_of_lt]

theorem LoadTerm.nonZeroTarget?_instr {x : LoadTerm} (hx : x.arg < 2 ^ 29) {t : Nat} :
    x.instr.nonZeroTarget? = some t ↔ x = ⟨.closeBracket, t⟩ := by
  obtain ⟨op, a⟩ := x
  cases op <;> simp_all [LoadTerm.instr, Instr.nonZeroTarget?, Nat.mod_eq_of_lt]

end Sys2Proof

namespace Sys2Proof.Machine

/-- The op fields from 4 on are those of the operators that never collapse (R70, R105). -/
theorem four_le_opBits_instr {x : LoadTerm} (h : collapses x.op = false) : 4 ≤ x.instr.opBits.toNat := by
  obtain ⟨op, a⟩ := x
  cases op <;> simp_all [LoadTerm.instr, Instr.opBits, collapses]

/-! ### The instruction of a term that fits its group -/

section Fits

variable {x : LoadTerm} {g : Group} (hfit : termFits g x)
include hfit

/-- A ReadByte or WriteByte of the loader has operand 0 (R115). -/
theorem termFits.wfZero_instr : x.instr.wfZero = true := by
  obtain ⟨hop, -, hzero⟩ := hfit
  obtain ⟨op, a⟩ := x
  cases hop
  cases hg : g.op <;> simp_all [LoadTerm.instr, Instr.wfZero]

variable (hok : groupOk g) (hx : x.arg < 2 ^ 29)
include hok hx

/-- The count of a run is the length of a group, which is not empty (R112). -/
theorem termFits.wfCount_instr : x.instr.wfCount = true := by
  obtain ⟨hop, hcount, -⟩ := hfit
  obtain ⟨hpos, -⟩ := hok
  obtain ⟨op, a⟩ := x
  cases hop
  cases hg : g.op <;> simp_all [LoadTerm.instr, Instr.wfCount, collapses, Nat.mod_eq_of_lt]

/-- The canonical form of a term is the text of its group (R78, R103). -/
theorem termFits.canonical_instr : x.instr.canonical = List.replicate g.count g.op.byte := by
  obtain ⟨hop, hcount, -⟩ := hfit
  obtain ⟨-, hone⟩ := hok
  obtain ⟨op, a⟩ := x
  cases hop
  cases hg : g.op <;> simp_all [LoadTerm.instr, Instr.canonical, collapses]

end Fits

/-! ### The image of a finished pass -/

theorem imageFetch_terms {out : List LoadTerm} {i : Nat} {x : LoadTerm} (h : out[i]? = some x) :
    imageFetch ⟨out.map fun x => encode x.instr⟩ i = x.instr := by
  simp [imageFetch, List.getD_eq_getElem?_getD, h, decode_encode]

/-- A JumpIfZero of the image is the term of a `[` with the same target. -/
theorem openBracket_of_imageFetch {out : List LoadTerm} (harg : ∀ x ∈ out, x.arg < 2 ^ 29) {i : Nat} {j : Operand}
    (hi : i < out.length) (h : imageFetch ⟨out.map fun x => encode x.instr⟩ i = .jumpIfZero j) :
    out[i]? = some ⟨.openBracket, j.toNat⟩ := by
  have hx : out[i]? = some out[i] := List.getElem?_eq_getElem hi
  rw [imageFetch_terms hx] at h
  rw [hx, Option.some_inj, ← LoadTerm.zeroTarget?_instr (harg _ (List.getElem_mem hi)), h]
  rfl

/-- The pair check by the two targets, for any instruction (R113). -/
theorem wfPair_eq_true {fetch : Nat → Instr} {n k : Nat} {i : Instr} :
    i.wfPair fetch n k = true ↔
      (∀ t, i.zeroTarget? = some t → k < t ∧ t < n ∧ (fetch t).nonZeroTarget? = some k) ∧
      (∀ t, i.nonZeroTarget? = some t → t < k ∧ (fetch t).zeroTarget? = some k) := by
  unfold Instr.wfPair
  cases i.zeroTarget? <;> cases i.nonZeroTarget? <;> simp [and_assoc]

section Finished

variable {gs : List Group} {out : List LoadTerm} (hp : Pass gs out [])
include hp

theorem Pass.exists_group {i : Nat} {x : LoadTerm} (h : out[i]? = some x) : ∃ g, gs[i]? = some g ∧ termFits g x := by
  have hi : i < gs.length := hp.len ▸ (List.getElem?_eq_some_iff.mp h).1
  exact ⟨gs[i], List.getElem?_eq_getElem hi, hp.fits i x _ h (List.getElem?_eq_getElem hi)⟩

variable (harg : ∀ x ∈ out, x.arg < 2 ^ 29)
include harg

/-- After the pass every jump and its partner name each other (R113). -/
theorem Pass.wfPair_instr {i : Nat} {x : LoadTerm} (h : out[i]? = some x) :
    x.instr.wfPair (imageFetch ⟨out.map fun x => encode x.instr⟩) out.length i = true := by
  have hlt : ∀ {k : Nat} {y : LoadTerm}, out[k]? = some y → y.arg < 2 ^ 29 :=
    fun hk => harg _ (List.mem_of_getElem? hk)
  refine wfPair_eq_true.mpr ⟨fun t ht => ?_, fun t ht => ?_⟩
  · obtain rfl := (LoadTerm.zeroTarget?_instr (hlt h)).mp ht
    obtain ⟨hit, hclose⟩ := hp.opens i t h List.not_mem_nil
    rw [imageFetch_terms hclose]
    exact ⟨hit, (List.getElem?_eq_some_iff.mp hclose).1, (LoadTerm.nonZeroTarget?_instr (hlt hclose)).mpr rfl⟩
  · obtain rfl := (LoadTerm.nonZeroTarget?_instr (hlt h)).mp ht
    obtain ⟨hti, -, hopen⟩ := hp.closes i t h
    rw [imageFetch_terms hopen]
    exact ⟨hti, (LoadTerm.zeroTarget?_instr (hlt hopen)).mpr rfl⟩

variable (hok : ∀ g ∈ gs, groupOk g)
include hok

theorem Pass.wfImage {depth : Nat} (hlen : out.length ≤ depth) :
    wfImage depth (imageFetch ⟨out.map fun x => encode x.instr⟩) out.length = true := by
  refine wfImage_eq_true.mpr ⟨hlen, fun i hi => ?_⟩
  have hx : out[i]? = some out[i] := List.getElem?_eq_getElem hi
  obtain ⟨g, hg, hfit⟩ := hp.exists_group hx
  rw [imageFetch_terms hx]
  exact ⟨hfit.wfCount_instr (hok g (List.mem_of_getElem? hg)) (harg _ (List.getElem_mem hi)),
    hfit.wfZero_instr, hp.wfPair_instr harg hx⟩

/-- Term by term, the canonical form of the output is the text of the groups. -/
theorem Pass.canonicalForm_eq :
    canonicalForm (out.map LoadTerm.instr) = gs.flatMap fun g => List.replicate g.count g.op.byte := by
  have hmap : out.map (fun x => x.instr.canonical) = gs.map fun g => List.replicate g.count g.op.byte := by
    refine List.ext_getElem (by simp [hp.len]) fun i hi hi' => ?_
    simp only [List.length_map] at hi hi'
    simp only [List.getElem_map]
    have hfit := hp.fits i _ _ (List.getElem?_eq_getElem hi) (List.getElem?_eq_getElem hi')
    exact hfit.canonical_instr (hok _ (List.getElem_mem hi')) (harg _ (List.getElem_mem hi))
  rw [canonicalForm, List.flatMap_map, List.flatMap_def, hmap, List.flatMap_def]

end Finished

/-! ### Groups -/

/-- The text of the groups of a source is the source without its comments (R102, R103). -/
theorem groupsOf_bytes (src : List Byte) :
    ((groupsOf (significantFrom 0 src)).flatMap fun g => List.replicate g.count g.op.byte) =
      src.filter fun b => (operatorOf? b).isSome := by
  calc
    _ = ((groupsOf (significantFrom 0 src)).flatMap fun g => List.replicate g.count g.op).map Operator.byte := by
      simp [List.map_flatMap]
    _ = (significantFrom 0 src).map fun e => e.2.byte := by rw [groupsOf_flatten, List.map_map]; rfl
    _ = _ := significantFrom_bytes 0 src

theorem Maximal.not_same_run {gs : List Group} (h : Maximal gs) {i : Nat} {g g' : Group} (hg : gs[i]? = some g)
    (hg' : gs[i + 1]? = some g') : ¬ (collapses g.op = true ∧ g.op = g'.op) := by
  induction gs generalizing i with
  | nil => simp at hg
  | cons a gs ih =>
    cases gs with
    | nil => simp at hg'
    | cons b gs =>
      obtain ⟨hab, hrest⟩ := h
      cases i with
      | zero =>
        obtain rfl : a = g := by simpa using hg
        obtain rfl : b = g' := by simpa using hg'
        exact hab
      | succ i => exact ih hrest (by simpa using hg) (by simpa using hg')

/-- Equal counted operators are one group, at the offset of the first (R104). -/
theorem groupsOf_run {op : Operator} (hc : collapses op = true) (off : Nat) {es : List (Nat × Operator)}
    (h : ∀ e ∈ es, e.2 = op) : groupsOf ((off, op) :: es) = [⟨off, op, es.length + 1⟩] := by
  induction es generalizing off with
  | nil => rfl
  | cons e es ih =>
    obtain ⟨off', op'⟩ := e
    obtain ⟨rfl : op' = op, hes⟩ := List.forall_mem_cons.mp h
    rw [groupsOf, ih off' hes]
    simp [consGroup, hc]

/-- The first element of the significant sequence is the first operator byte of the source (R102). -/
theorem significantFrom_head {off o : Nat} {op : Operator} {src : List Byte} {es : List (Nat × Operator)}
    (h : significantFrom off src = (o, op) :: es) :
    ∃ pos, o = off + pos ∧ src[pos]? = some op.byte ∧ ∀ j b, j < pos → src[j]? = some b → operatorOf? b = none := by
  induction src generalizing off with
  | nil => cases h
  | cons b src ih =>
    unfold significantFrom at h
    cases hb : operatorOf? b with
    | some op' =>
      rw [hb] at h
      cases h
      exact ⟨0, rfl, by simp [byte_of_operatorOf? hb], nofun⟩
    | none =>
      rw [hb] at h
      obtain ⟨pos, rfl, hpos, hbefore⟩ := ih h
      refine ⟨pos + 1, by omega, by simpa using hpos, fun j c hj hc => ?_⟩
      cases j with
      | zero => cases hc; exact hb
      | succ j => exact hbefore j c (by omega) (by simpa using hc)

/-! ### The loader after lexing and grouping -/

/-- `load` from its groups on. -/
def loadGroups (depth : Nat) (gs : List Group) : Except LoadError Image :=
  match assemble gs [] [] with
  | .error e => .error e
  | .ok out => finishLoad depth gs out

theorem load_eq_loadGroups (depth : Nat) (src : List Byte) :
    load depth src = loadGroups depth (groupsOf (significantFrom 0 src)) := rfl

/-- One counted run is one term, and its count is checked against the operand field (R104, R114). -/
theorem loadGroups_run {depth : Nat} (hd : 1 ≤ depth) {g : Group} (hc : collapses g.op = true) :
    loadGroups depth [g] =
      if g.count ≥ 2 ^ 29 then .error (.operandOverflow g.off)
      else .ok ⟨[encode (LoadTerm.instr ⟨g.op, g.count⟩)]⟩ := by
  have hpass : assemble [g] [] [] = .ok [⟨g.op, g.count⟩] := by
    cases hg : g.op <;> simp_all [collapses, assemble]
  have hlen : tooLongAt depth [g] [⟨g.op, g.count⟩] = none := if_neg (Nat.not_lt.mpr hd)
  simp only [loadGroups, hpass, finishLoad, hlen, overflowAt]
  by_cases hcount : g.count ≥ 2 ^ 29
  · rw [if_pos hcount, if_pos hcount]
  · rw [if_neg hcount, if_neg hcount]
    rfl

/-- The errors after bracket matching are not bracket errors (R111, R114). -/
theorem finishLoad_ne_bracketError (depth : Nat) (gs : List Group) (out : List LoadTerm) (pos : Nat) :
    finishLoad depth gs out ≠ .error (.unmatchedCloseBracket pos) ∧
      finishLoad depth gs out ≠ .error (.unclosedLoop pos) := by
  unfold finishLoad
  split <;> simp

/-! ### Source offsets and the image (R102) -/

/-- A group without its source offset. -/
def Group.atZero (g : Group) : Group := { g with off := 0 }

theorem groupsOf_map_atZero (es : List (Nat × Operator)) :
    (groupsOf es).map Group.atZero = groupsOf (es.map fun e => (0, e.2)) := by
  induction es with
  | nil => rfl
  | cons e es ih =>
    rw [groupsOf, List.map_cons, groupsOf, ← ih]
    cases groupsOf es with
    | nil => rfl
    | cons g gs => simp only [consGroup, List.map_cons, Group.atZero]; split <;> rfl

/-- Whether the pass succeeds, and its output, do not depend on the offsets. -/
theorem assemble_atZero (gs : List Group) (out : List LoadTerm) (stack : List (Nat × Nat)) :
    (assemble (gs.map Group.atZero) out (stack.map fun e => (e.1, 0))).toOption = (assemble gs out stack).toOption := by
  induction gs generalizing out stack with
  | nil => cases stack <;> rfl
  | cons g gs ih =>
    cases hg : g.op <;> simp only [List.map_cons, assemble, Group.atZero, hg]
    case openBracket => exact ih _ ((out.length, g.off) :: stack)
    case closeBracket =>
      cases stack with
      | nil => rfl
      | cons e stack => exact ih _ stack
    all_goals exact ih _ stack

theorem overflowAt_atZero (gs : List Group) (out : List LoadTerm) :
    overflowAt (gs.map Group.atZero) out = (overflowAt gs out).map fun _ => 0 := by
  induction gs generalizing out with
  | nil => rfl
  | cons g gs ih =>
    cases out with
    | nil => rfl
    | cons x xs =>
      simp only [List.map_cons, overflowAt, ih]
      split <;> rfl

theorem tooLongAt_atZero (depth : Nat) (gs : List Group) (out : List LoadTerm) :
    tooLongAt depth (gs.map Group.atZero) out = (tooLongAt depth gs out).map fun _ => 0 := by
  unfold tooLongAt
  split
  · simp [Group.atZero, Function.comp_def]
  · rfl

theorem finishLoad_atZero (depth : Nat) (gs : List Group) (out : List LoadTerm) :
    (finishLoad depth (gs.map Group.atZero) out).toOption = (finishLoad depth gs out).toOption := by
  unfold finishLoad
  rw [tooLongAt_atZero, overflowAt_atZero]
  cases tooLongAt depth gs out <;> cases overflowAt gs out <;> rfl

theorem loadGroups_toOption (depth : Nat) (gs : List Group) :
    (loadGroups depth gs).toOption =
      (assemble gs [] []).toOption.bind fun out => (finishLoad depth gs out).toOption := by
  unfold loadGroups
  cases assemble gs [] [] <;> rfl

theorem loadGroups_atZero (depth : Nat) (gs : List Group) :
    (loadGroups depth (gs.map Group.atZero)).toOption = (loadGroups depth gs).toOption := by
  have hpass := assemble_atZero gs [] []
  rw [List.map_nil] at hpass
  simp only [loadGroups_toOption, hpass, finishLoad_atZero]

/-- The image is a function of the operators of the source, in order (R102). -/
theorem load_toOption_of_ops (depth : Nat) (src : List Byte) :
    (load depth src).toOption =
      (loadGroups depth (groupsOf ((src.filterMap operatorOf?).map (Prod.mk 0)))).toOption := by
  rw [load_eq_loadGroups, ← loadGroups_atZero, groupsOf_map_atZero, ← significantFrom_ops 0, List.map_map]
  rfl

theorem toOption_eq_some {ε α : Type} {r : Except ε α} {a : α} : r.toOption = some a ↔ r = .ok a := by
  cases r <;> simp [Except.toOption]

theorem filterMap_operatorOf?_filter (src : List Byte) :
    (src.filter fun b => (operatorOf? b).isSome).filterMap operatorOf? = src.filterMap operatorOf? := by
  rw [List.filterMap_filter]
  congr 1
  funext b
  cases operatorOf? b <;> rfl

/-! ### The brackets of a source (R108, R109, R117) -/

/-- With `m` unmatched `[` before the text, every `]` of it has one to match. -/
def Within (m : Nat) (src : List Byte) : Prop :=
  ∀ k, (src.take k).count 0x5D#8 ≤ (src.take k).count 0x5B#8 + m

theorem within_nil (m : Nat) : Within m [] := fun k => by simp

theorem within_cons {m : Nat} {b : Byte} {src : List Byte} :
    Within m (b :: src) ↔ ∀ k, (b :: src.take k).count 0x5D#8 ≤ (b :: src.take k).count 0x5B#8 + m := by
  constructor
  · exact fun h k => h (k + 1)
  · intro h k
    cases k with
    | zero => simp
    | succ k => exact h k

theorem within_open {m : Nat} {src : List Byte} : Within m (0x5B#8 :: src) ↔ Within (m + 1) src := by
  rw [within_cons]
  exact forall_congr' fun k => by simp; omega

theorem within_close {m : Nat} {src : List Byte} : Within (m + 1) (0x5D#8 :: src) ↔ Within m src := by
  rw [within_cons]
  exact forall_congr' fun k => by simp; omega

theorem not_within_zero_close {src : List Byte} : ¬ Within 0 (0x5D#8 :: src) := by
  intro h
  simpa using h 1

theorem within_other {m : Nat} {b : Byte} {src : List Byte} (ho : b ≠ 0x5B#8) (hc : b ≠ 0x5D#8) :
    Within m (b :: src) ↔ Within m src := by
  rw [within_cons]
  exact forall_congr' fun k => by simp [ho, hc]

/-- The text closes the `m` unmatched `[` before it and leaves none of its own. -/
def Closes (m : Nat) (src : List Byte) : Prop := Within m src ∧ src.count 0x5D#8 = src.count 0x5B#8 + m

theorem closes_zero_nil : Closes 0 [] := ⟨within_nil 0, rfl⟩

theorem closes_open {m : Nat} {src : List Byte} : Closes m (0x5B#8 :: src) ↔ Closes (m + 1) src :=
  and_congr within_open (by simp; omega)

theorem closes_close {m : Nat} {src : List Byte} : Closes (m + 1) (0x5D#8 :: src) ↔ Closes m src :=
  and_congr within_close (by simp; omega)

theorem closes_other {m : Nat} {b : Byte} {src : List Byte} (ho : b ≠ 0x5B#8) (hc : b ≠ 0x5D#8) :
    Closes m (b :: src) ↔ Closes m src :=
  and_congr (within_other ho hc) (by simp [ho, hc])

/-- The most recent unmatched `[` of a text stands at `pos`: what follows is balanced (R109). -/
def PendingAt (src : List Byte) (pos : Nat) : Prop := src[pos]? = some 0x5B#8 ∧ Closes 0 (src.drop (pos + 1))

theorem PendingAt.cons {src : List Byte} {pos : Nat} (h : PendingAt src pos) (b : Byte) :
    PendingAt (b :: src) (pos + 1) := h

section Scan

variable {off : Nat} {src : List Byte} {st : List Nat}

theorem bracketScan_open : bracketScan off (0x5B#8 :: src) st = bracketScan (off + 1) src (off :: st) := by
  simp [bracketScan]

theorem bracketScan_close_nil :
    bracketScan off (0x5D#8 :: src) [] = .error (.unmatchedCloseBracket off) := by simp [bracketScan]

theorem bracketScan_close_cons {o : Nat} :
    bracketScan off (0x5D#8 :: src) (o :: st) = bracketScan (off + 1) src st := by simp [bracketScan]

theorem bracketScan_other {b : Byte} (ho : b ≠ 0x5B#8) (hc : b ≠ 0x5D#8) :
    bracketScan off (b :: src) st = bracketScan (off + 1) src st := by simp [bracketScan, ho, hc]

/-- Where every `]` has a match the scan goes through, and what is pending is the excess of `[`. -/
theorem bracketScan_of_within (h : Within st.length src) :
    ∃ st', bracketScan off src st = .ok st' ∧
      st'.length + src.count 0x5D#8 = st.length + src.count 0x5B#8 := by
  induction src generalizing off st with
  | nil => exact ⟨st, rfl, by simp⟩
  | cons b src ih =>
    by_cases ho : b = 0x5B#8
    · subst ho
      obtain ⟨st', hscan, hcount⟩ := ih (off := off + 1) (st := off :: st) (within_open.mp h)
      refine ⟨st', bracketScan_open.trans hscan, ?_⟩
      simp at hcount ⊢
      omega
    by_cases hc : b = 0x5D#8
    · subst hc
      cases st with
      | nil => exact absurd h not_within_zero_close
      | cons o st =>
        obtain ⟨st', hscan, hcount⟩ := ih (off := off + 1) (st := st) (within_close.mp h)
        refine ⟨st', bracketScan_close_cons.trans hscan, ?_⟩
        simp
        omega
    · obtain ⟨st', hscan, hcount⟩ := ih (off := off + 1) ((within_other ho hc).mp h)
      exact ⟨st', (bracketScan_other ho hc).trans hscan, by simpa [ho, hc] using hcount⟩

theorem bracketScan_append {rest : List Byte} {st' : List Nat} (h : bracketScan off src st = .ok st') :
    bracketScan off (src ++ rest) st = bracketScan (off + src.length) rest st' := by
  induction src generalizing off st with
  | nil => cases h; rfl
  | cons b src ih =>
    have hlen : off + (b :: src).length = off + 1 + src.length := by simp; omega
    rw [List.cons_append, hlen]
    by_cases ho : b = 0x5B#8
    · subst ho
      rw [bracketScan_open] at h ⊢
      exact ih h
    by_cases hc : b = 0x5D#8
    · subst hc
      cases st with
      | nil => rw [bracketScan_close_nil] at h; cases h
      | cons o st =>
        rw [bracketScan_close_cons] at h ⊢
        exact ih h
    · rw [bracketScan_other ho hc] at h ⊢
      exact ih h

/-- The most recent pending `[` of a scan is that of the text; where the text has none, it stood on the stack, under the
`m` that the text closes. -/
theorem bracketScan_top {o : Nat} {st' : List Nat} (h : bracketScan off src st = .ok (o :: st')) :
    (∃ pos, o = off + pos ∧ PendingAt src pos) ∨ ∃ m, st.drop m = o :: st' ∧ Closes m src := by
  induction src generalizing off st with
  | nil => cases h; exact .inr ⟨0, rfl, closes_zero_nil⟩
  | cons b src ih =>
    have later : (∃ pos, o = off + 1 + pos ∧ PendingAt src pos) → ∃ pos, o = off + pos ∧ PendingAt (b :: src) pos := by
      rintro ⟨pos, rfl, hpos⟩
      exact ⟨pos + 1, by omega, hpos.cons b⟩
    by_cases ho : b = 0x5B#8
    · subst ho
      rw [bracketScan_open] at h
      obtain hin | ⟨m, hdrop, hcl⟩ := ih h
      · exact .inl (later hin)
      · cases m with
        | zero => cases hdrop; exact .inl ⟨0, rfl, rfl, hcl⟩
        | succ m => exact .inr ⟨m, hdrop, closes_open.mpr hcl⟩
    by_cases hc : b = 0x5D#8
    · subst hc
      cases st with
      | nil => rw [bracketScan_close_nil] at h; cases h
      | cons o' st =>
        rw [bracketScan_close_cons] at h
        obtain hin | ⟨m, hdrop, hcl⟩ := ih h
        · exact .inl (later hin)
        · exact .inr ⟨m + 1, hdrop, closes_close.mpr hcl⟩
    · rw [bracketScan_other ho hc] at h
      obtain hin | ⟨m, hdrop, hcl⟩ := ih h
      · exact .inl (later hin)
      · exact .inr ⟨m, hdrop, (closes_other ho hc).mpr hcl⟩

end Scan

/-- The first `]` with no match ends the scan at its own offset (R108). -/
theorem bracketScan_unmatched {src : List Byte} {pos : Nat} (hbefore : Within 0 (src.take pos))
    (hexcess : (src.take (pos + 1)).count 0x5B#8 < (src.take (pos + 1)).count 0x5D#8) :
    bracketScan 0 src [] = .error (.unmatchedCloseBracket pos) := by
  obtain ⟨st, hscan, hcount⟩ := bracketScan_of_within (off := 0) (st := []) hbefore
  rw [List.length_nil, Nat.zero_add] at hcount
  by_cases hpos : pos < src.length
  · rw [← List.take_append_getElem hpos, List.count_append, List.count_append] at hexcess
    have hclose : src[pos] = 0x5D#8 := by
      refine Decidable.byContradiction fun hne => ?_
      have hzero : [src[pos]].count 0x5D#8 = 0 :=
        List.count_eq_zero.mpr fun hmem => hne (List.mem_singleton.mp hmem).symm
      omega
    have hnil : st = [] := by
      rw [hclose, List.count_singleton_self] at hexcess
      exact List.eq_nil_of_length_eq_zero (by omega)
    have hsplit : src = src.take pos ++ 0x5D#8 :: src.drop (pos + 1) := by
      rw [← hclose, ← List.drop_eq_getElem_cons hpos, List.take_append_drop]
    rw [hsplit, bracketScan_append hscan, hnil, bracketScan_close_nil, List.length_take, Nat.min_eq_left (Nat.le_of_lt hpos),
      Nat.zero_add]
  · rw [List.take_of_length_le (by omega)] at hexcess hcount
    omega

/-! ### Bracket errors of the loader (R111) -/

section LoadScan

variable (depth : Nat) {src : List Byte}

theorem load_of_bracketScan_error {e : LoadError} (h : bracketScan 0 src [] = .error e) :
    load depth src = .error e := by
  have hpass := assemble_groupScan (groupsOf (significantFrom 0 src)) [] []
  rw [List.map_nil, groupScan_source, h] at hpass
  simp only [load, hpass]

theorem load_of_bracketScan_pending {o : Nat} {st : List Nat} (h : bracketScan 0 src [] = .ok (o :: st)) :
    load depth src = .error (.unclosedLoop o) := by
  have hpass := assemble_groupScan (groupsOf (significantFrom 0 src)) [] []
  rw [List.map_nil, groupScan_source, h] at hpass
  simp only [load, hpass]

theorem load_of_bracketScan_balanced (h : bracketScan 0 src [] = .ok []) :
    ∃ out, load depth src = finishLoad depth (groupsOf (significantFrom 0 src)) out := by
  have hpass := assemble_groupScan (groupsOf (significantFrom 0 src)) [] []
  rw [List.map_nil, groupScan_source, h] at hpass
  obtain ⟨out, hout⟩ := hpass
  exact ⟨out, by simp only [load, hout]⟩

end LoadScan

/-! ### Reset release on an image that is not WF -/

/-- Release from RESET answers the refusal of the image (R115). -/
theorem hostAct_releaseReset_eq_refused {s : State} (hr : s.runState = .reset) {r : Refusal} :
    hostAct .releaseReset s = .refused r ↔ s.admission = some r := by
  simp only [hostAct, State.releaseReset, hr]
  cases s.admission <;> simp

/-! ### The statements -/

/-- Settles O46: the pass leaves one term per group with every bracket matched, and the limits of R114 hold. -/
theorem loadedImageIsWellFormed : Obligations.LoadedImageIsWellFormed := by
  intro depth src img h
  obtain ⟨out, hp, hlen, harg, rfl⟩ := load_ok h
  rw [imageIsWf, List.length_map]
  exact hp.wfImage harg (groupsOf_ok _) hlen

/-- Settles O47: the pairs of the finished pass nest. -/
theorem loadedPairsNest : Obligations.LoadedPairsNest := by
  intro depth src img i₁ i₂ j₁ j₂ h hi₁ hi₂ hj₁ hj₂
  obtain ⟨out, hp, -, harg, rfl⟩ := load_ok h
  rw [List.length_map] at hi₁ hi₂
  exact hp.nest i₁ _ i₂ _ (openBracket_of_imageFetch harg hi₁ hj₁) List.not_mem_nil
    (openBracket_of_imageFetch harg hi₂ hj₂) List.not_mem_nil

/-- Settles O48: both are the text of the groups of the source. -/
theorem canonicalFormIsTheSource : Obligations.CanonicalFormIsTheSource := by
  intro depth src img h
  obtain ⟨out, hp, -, harg, rfl⟩ := load_ok h
  have hterms : (out.map fun x => encode x.instr).map decode = out.map LoadTerm.instr := by
    simp [Function.comp_def, decode_encode]
  rw [hterms, hp.canonicalForm_eq harg (groupsOf_ok _), groupsOf_bytes]

/-- Settles O49: two neighbours of one op come from two groups of one operator, which collapses in no maximal
grouping. -/
theorem loadedRunsAreMaximal : Obligations.LoadedRunsAreMaximal := by
  intro depth src img i h hi hop
  obtain ⟨out, hp, -, -, rfl⟩ := load_ok h
  rw [List.length_map] at hi
  have hx : out[i]? = some out[i] := List.getElem?_eq_getElem (by omega)
  have hy : out[i + 1]? = some out[i + 1] := List.getElem?_eq_getElem hi
  obtain ⟨g, hg, hgop, -⟩ := hp.exists_group hx
  obtain ⟨g', hg', hgop', -⟩ := hp.exists_group hy
  rw [imageFetch_terms hx, imageFetch_terms hy, LoadTerm.opBits_instr_inj] at hop
  rw [imageFetch_terms hx]
  refine four_le_opBits_instr (Bool.eq_false_iff.mpr fun hc => ?_)
  exact (groupsOf_maximal _).not_same_run hg hg' ⟨hgop ▸ hc, by rw [← hgop, ← hgop', hop]⟩

/-- Settles O50: the image is a function of the operators, and dropping the comments keeps those. -/
theorem commentsHaveNoEffect : Obligations.CommentsHaveNoEffect := by
  intro depth src img
  rw [← toOption_eq_some, ← toOption_eq_some, load_toOption_of_ops, load_toOption_of_ops,
    filterMap_operatorOf?_filter]

/-- Settles O51: the pass fails as the scan of the brackets does, and the scan is read off the counts of brackets. -/
theorem bracketErrors : Obligations.BracketErrors := by
  intro depth src
  refine ⟨fun pos hbefore hexcess => ?_, fun hw hexcess => ?_, fun hw hbal pos => ?_⟩
  · refine load_of_bracketScan_error depth (bracketScan_unmatched (fun k => ?_) hexcess)
    rw [List.take_take]
    exact hbefore _ (Nat.min_le_right _ _)
  · obtain ⟨st, hscan, hcount⟩ := bracketScan_of_within (off := 0) (st := []) hw
    cases st with
    | nil => simp at hcount; omega
    | cons o st =>
      obtain ⟨pos, ho, hopen, hwrest, hbal⟩ | ⟨m, hdrop, -⟩ := bracketScan_top hscan
      · obtain rfl : o = pos := by omega
        exact ⟨o, load_of_bracketScan_pending depth hscan, hopen, hbal, hwrest⟩
      · simp at hdrop
  · obtain ⟨st, hscan, hcount⟩ := bracketScan_of_within (off := 0) (st := []) hw
    obtain rfl : st = [] := List.eq_nil_of_length_eq_zero (by simp at hcount; omega)
    obtain ⟨out, hload⟩ := load_of_bracketScan_balanced depth hscan
    rw [hload]
    exact finishLoad_ne_bracketError depth _ out pos

/-- Settles O52: the operators of the text are one group, of length `k` and at the first of them. -/
theorem oneRunIsOneInstruction : Obligations.OneRunIsOneInstruction := by
  intro depth k op src hd hk hc hfilter
  have hops : (significantFrom 0 src).map Prod.snd = List.replicate k op := by
    rw [significantFrom_ops, ← filterMap_operatorOf?_filter, hfilter, List.filterMap_replicate, operatorOf?_byte]
  obtain ⟨hlen, hall⟩ := List.eq_replicate_iff.mp hops
  cases hsig : significantFrom 0 src with
  | nil => simp [hsig] at hlen; omega
  | cons e es =>
    obtain ⟨o, op'⟩ := e
    simp only [hsig, List.map_cons, List.forall_mem_cons, List.length_cons, List.length_map] at hlen hall
    obtain ⟨rfl, hes⟩ := hall
    obtain ⟨pos, hpos, hfirst, hbefore⟩ := significantFrom_head hsig
    have hgroups : groupsOf (significantFrom 0 src) = [⟨o, op', k⟩] := by
      rw [hsig, groupsOf_run hc o (List.forall_mem_map.mp hes), hlen]
    rw [load_eq_loadGroups, hgroups, loadGroups_run hd hc]
    obtain rfl : o = pos := by omega
    exact ⟨fun hlt => if_neg (Nat.not_le.mpr hlt), fun hge => ⟨o, if_pos hge, hfirst, hbefore⟩⟩

/-- Settles O42: release from RESET answers a fresh run exactly where the image is admitted. -/
theorem releaseAdmitsOnlyWellFormed : Obligations.ReleaseAdmitsOnlyWellFormed := by
  intro s hr
  refine ⟨by simp [hostAct_releaseReset_eq_next hr], fun hw => ?_⟩
  have hne : s.admission ≠ none := by simp [State.admission_eq_none, hw]
  obtain ⟨r, hr'⟩ := Option.ne_none_iff_exists'.mp hne
  exact ⟨r, (hostAct_releaseReset_eq_refused hr).mpr hr'⟩

end Sys2Proof.Machine
end

section
/-! PROOFS. The cycle family (41_cycle.md): what the step is in each run state, that it answers throughout a run, and the
next pc of a step that retires. -/

namespace Sys2Proof.Machine

/-! ### The step, case by case (R131, R132, R210) -/

theorem step_of_reset {s : State} (h : s.runState = .reset) : step s = .fault .noStepInReset := by
  simp only [step, State.stepByRunState, h]

theorem step_of_halted {s : State} (h : s.runState = .halted) : step s = .fault .noStepHalted := by
  simp only [step, State.stepByRunState, h]

theorem step_of_faulted {s : State} (h : s.runState = .faulted) : step s = .fault .noStepFaulted := by
  simp only [step, State.stepByRunState, h]

/-- Cancel is taken whatever pc is (R209, R210). -/
theorem step_of_cancelAsserted {s : State} (ha : s.active) (hw : s.imageWf = true) (hc : s.cancelAsserted = true) :
    step s = .next (s.enterFault .cancelled s.pc s.dp) := by
  rw [step_of_active ha hw, State.blockStep, if_pos hc]

/-- Past the last instruction the block halts (R132). -/
theorem step_of_programEnd {s : State} (ha : s.active) (hw : s.imageWf = true) (hc : s.cancelAsserted = false)
    (hp : s.progLen.toNat ≤ s.pc.toNat) : step s = .next s.halt := by
  rw [step_of_active ha hw, State.blockStep, if_neg (Bool.eq_false_iff.mp hc), if_pos hp]

theorem step_of_effect {s t : State} (hx : s.executes) (he : Effect s s.current t) : step s = .next t := by
  rw [step_of_executes hx, exec_of_effect he]

/-- The converse of `step_cases` in a run: with dp in range and a WF image, each of cancel, halt and the instruction
answers (R133, R135). -/
theorem step_answers {s : State} (ha : s.active) (hw : s.imageWf = true) (hd : s.dp.toNat < cells) :
    ∃ t, step s = .next t := by
  cases hc : s.cancelAsserted with
  | true => exact ⟨_, step_of_cancelAsserted ha hw hc⟩
  | false =>
    rcases Nat.lt_or_ge s.pc.toNat s.progLen.toNat with hp | hp
    · obtain ⟨t, he⟩ := effect_exists s.current hd
      exact ⟨t, step_of_effect ⟨ha, hw, hc, hp⟩ he⟩
    · exact ⟨_, step_of_programEnd ha hw hc hp⟩

/-! ### The run state after a step (R30, R135) -/

/-- An instruction retires, waits or faults. -/
theorem Effect.runState_cases {s t : State} {i : Instr} (he : Effect s i t) :
    t.runState = .run ∨ t.runState = .waitIn ∨ t.runState = .faulted := by
  cases he with
  | leftOut n h => exact .inr (.inr rfl)
  | rightOut n h => exact .inr (.inr rfl)
  | readFault x hi hcl hpol => exact .inr (.inr rfl)
  | readWait x hi hcl => exact .inr (.inl rfl)
  | _ => exact .inl rfl

/-- A step retires, waits, halts or faults. -/
theorem step_runState_cases {s t : State} (h : step s = .next t) :
    t.runState = .run ∨ t.runState = .waitIn ∨ t.runState = .halted ∨ t.runState = .faulted := by
  obtain ⟨-, -, -, -, rfl⟩ | ⟨-, -, -, -, rfl⟩ | ⟨-, i, -, he⟩ := step_cases h
  · exact .inr (.inr (.inr rfl))
  · exact .inr (.inr (.inl rfl))
  · exact he.runState_cases.imp_right (Or.imp_right .inr)

/-- Only an instruction ends its step in RUN: cancel ends in FAULTED and halt in HALTED. -/
theorem effect_of_step_run {s t : State} (h : step s = .next t) (hr : t.runState = .run) :
    s.executes ∧ Effect s s.current t := by
  obtain ⟨-, -, -, -, rfl⟩ | ⟨-, -, -, -, rfl⟩ | ⟨hx, i, rfl, he⟩ := step_cases h
  · exact absurd hr nofun
  · exact absurd hr nofun
  · exact ⟨hx, he⟩

/-! ### The next pc (R134) -/

theorem Effect.pc_of_zeroTaken {s t : State} {u : Operand} (he : Effect s (.jumpIfZero u) t) (hz : s.cell = 0) :
    t.pc.toNat = u.toNat + 1 := by
  cases he with
  | zeroTaken _ hd _ => exact targetOf_succ_toNat u
  | zeroThrough _ hd hne => exact absurd hz hne

theorem Effect.pc_of_nonZeroTaken {s t : State} {u : Operand} (he : Effect s (.jumpIfNonZero u) t)
    (hz : s.cell ≠ 0) : t.pc.toNat = u.toNat + 1 := by
  cases he with
  | nonZeroTaken _ hd _ => exact targetOf_succ_toNat u
  | nonZeroThrough _ hd heq => exact absurd heq hz

/-- An instruction that retires and is no taken jump goes to the index after its own. -/
theorem Effect.pc_of_notTaken {s t : State} {i : Instr} (he : Effect s i t) (hr : t.runState = .run)
    (hn : ∀ u : Operand, ¬ (i = .jumpIfZero u ∧ s.cell = 0) ∧ ¬ (i = .jumpIfNonZero u ∧ s.cell ≠ 0)) :
    t.pc = s.pc + 1 := by
  cases he with
  | leftOut n h => cases hr
  | rightOut n h => cases hr
  | readFault x hi hcl hpol => cases hr
  | readWait x hi hcl => cases hr
  | zeroTaken u hd hz => exact absurd ⟨rfl, hz⟩ (hn u).1
  | nonZeroTaken u hd hz => exact absurd ⟨rfl, hz⟩ (hn u).2
  | _ => rfl

/-- pc + 1 does not wrap where an instruction executes, for pc is below N. -/
theorem State.executes.pc_succ_toNat {s : State} (h : s.executes) : (s.pc + 1).toNat = s.pc.toNat + 1 := by
  obtain ⟨-, -, -, hp⟩ := h
  exact Machine.pc_succ_toNat (by omega)

/-! ### The statements -/

/-- Settles O27: the invariant gives a WF image and a dp that names a cell, which is all an answer needs. -/
theorem everyStepOfARunAnswers : Obligations.EveryStepOfARunAnswers := by
  intro s h ha
  obtain ⟨t, hstep⟩ := step_answers ha (h.admitted ha.ne_reset) h.dpInRange
  exact ⟨t, hstep, step_runState_cases hstep⟩

/-- Settles O28: a step that ends in RUN is an instruction's effect, which names the next pc. -/
theorem retireAdvancesPc : Obligations.RetireAdvancesPc := by
  intro s t _ hstep hr
  obtain ⟨hx, he⟩ := effect_of_step_run hstep hr
  refine ⟨fun u hu hz => ?_, fun u hu hz => ?_, fun hn => ?_⟩
  · exact (hu ▸ he).pc_of_zeroTaken hz
  · exact (hu ▸ he).pc_of_nonZeroTaken hz
  · rw [he.pc_of_notTaken hr hn, hx.pc_succ_toNat]

/-- Settles O22: the four bytes of the word at pc decode to the current instruction and to no other. -/
theorem stepRunsDecodedInstruction : Obligations.StepRunsDecodedInstruction := by
  intro s i hx hdec
  have hcur : decodeBytes (wordBytes (Imem.read s.imem s.pc.toNat)) = .ok (s.current, []) :=
    decodeBytes_wordBytes_append _ []
  obtain rfl : s.current = i := by simpa [hcur] using hdec
  exact step_of_executes hx

/-- Settles O23: the step halts, and from HALTED there is none. -/
theorem haltAtProgramEnd : Obligations.HaltAtProgramEnd := fun _ ha hw hc hp =>
  ⟨step_of_programEnd ha hw hc hp, step_of_halted rfl⟩

/-- Settles O25, by the step of each of the three run states. -/
theorem noStepOutsideRun : Obligations.NoStepOutsideRun := fun _ =>
  ⟨step_of_reset, step_of_halted, step_of_faulted⟩

end Sys2Proof.Machine
end

section
/-! PROOFS. The cursor family (42_cursor.md): what a move gives, in range and out of it, and the sum of a sequence of
moves. -/

namespace Sys2Proof.Machine

/-! ### The two ends of a move (R150, R151) -/

/-- Fault entry with the instruction's own pc and dp is the one of R204. -/
theorem State.faultEntered_enterFault (s : State) (c : FaultCause) : FaultEntered c s (s.enterFault c s.pc s.dp) :=
  ⟨rfl, rfl, rfl, rfl, rfl, rfl, rfl, ⟨rfl, rfl, rfl⟩, ⟨rfl, rfl, rfl, rfl⟩, rfl⟩

/-- A cursor that fits dp is kept exactly. -/
theorem State.setDp_dp_toNat (s : State) {d : Nat} (hd : d < 2 ^ 15) : (s.setDp d).dp.toNat = d := by
  rw [State.setDp_dp, BitVec.toNat_ofNat, Nat.mod_eq_of_lt hd]

/-- What an instruction answers whose effect is a fault entry. -/
theorem Effect.exec_faultEntered {s : State} {i : Instr} {c : FaultCause}
    (he : Effect s i (s.enterFault c s.pc s.dp)) : ∃ t, exec i s = .next t ∧ FaultEntered c s t :=
  ⟨_, exec_of_effect he, s.faultEntered_enterFault c⟩

/-- What an instruction answers whose effect is to set dp and retire: the new dp, the next pc, and the frame. -/
theorem Effect.exec_setDp_retire {s : State} {i : Instr} {d : Nat} (he : Effect s i ((s.setDp d).retire s.pc))
    (hd : d < 2 ^ 15) (hp : s.pc.toNat < s.progLen.toNat) :
    ∃ t, exec i s = .next t ∧ t.dp.toNat = d ∧ t.pc.toNat = s.pc.toNat + 1 ∧ t.runState = .run ∧ t.mem = s.mem ∧
      t.output = s.output ∧ SameProgram s t ∧ SameRecord s t ∧ SameInput s t :=
  ⟨_, exec_of_effect he, s.setDp_dp_toNat hd, pc_succ_toNat (by omega), rfl, rfl, rfl, ⟨rfl, rfl, rfl⟩,
    ⟨rfl, rfl, rfl⟩, ⟨rfl, rfl, rfl, rfl⟩⟩

/-! ### Sequences of moves (R152) -/

@[simp] theorem moveSum_nil : moveSum [] = 0 := rfl

theorem moveSum_cons {i : Instr} {d : Int} (hi : moveBy? i = some d) (is : List Instr) :
    moveSum (i :: is) = d + moveSum is := by
  simp [moveSum, hi]

theorem execAll_cons {i : Instr} {s t : State} (h : exec i s = .next t) (is : List Instr) :
    execAll (i :: is) s = execAll is t := by
  simp only [execAll, h]

/-- A move that stays on the tape retires with its signed distance added to dp. -/
theorem Effect.of_moveBy {i : Instr} {d : Int} {s : State} (hi : moveBy? i = some d) (h0 : 0 ≤ (s.dp.toNat : Int) + d)
    (h1 : (s.dp.toNat : Int) + d ≤ 29999) : Effect s i ((s.setDp ((s.dp.toNat : Int) + d).toNat).retire s.pc) := by
  cases i with
  | moveLeft n =>
    obtain rfl : -(n.toNat : Int) = d := Option.some.inj hi
    have hd : ((s.dp.toNat : Int) + -n.toNat).toNat = s.dp.toNat - n.toNat := by omega
    rw [hd]
    exact .left n (by omega)
  | moveRight n =>
    obtain rfl : (n.toNat : Int) = d := Option.some.inj hi
    have hd : ((s.dp.toNat : Int) + n.toNat).toNat = s.dp.toNat + n.toNat := by omega
    rw [hd]
    exact .right n (show _ < 30000 by omega)
  | _ => cases hi

/-- One move of a sequence: the signed sum on exact numbers, with no condition on pc. -/
theorem exec_move {i : Instr} {d : Int} {s : State} (hi : moveBy? i = some d) (h0 : 0 ≤ (s.dp.toNat : Int) + d)
    (h1 : (s.dp.toNat : Int) + d ≤ 29999) :
    ∃ t, exec i s = .next t ∧ t.runState = .run ∧ (t.dp.toNat : Int) = (s.dp.toNat : Int) + d ∧ t.mem = s.mem := by
  refine ⟨_, exec_of_effect (.of_moveBy hi h0 h1), rfl, ?_, rfl⟩
  rw [State.retire_dp, State.setDp_dp_toNat _ (by omega), Int.toNat_of_nonneg h0]

/-! ### The statements -/

/-- Settles O21, by induction on the sequence: the sum of the first move alone is on the tape, and the sums
along the rest are those along the whole that begin with the first move. -/
theorem movesAddUp : Obligations.MovesAddUp := by
  intro is
  induction is with
  | nil =>
    intro s _ hrun _
    exact ⟨s, rfl, hrun, by simp, rfl⟩
  | cons i rest ih =>
    intro s hmoves _ hbound
    obtain ⟨hi, hrest⟩ := List.forall_mem_cons.mp hmoves
    obtain ⟨d, hd⟩ := Option.ne_none_iff_exists'.mp hi
    have hrange : ∀ k, 0 ≤ (s.dp.toNat : Int) + (d + moveSum (rest.take k)) ∧
        (s.dp.toNat : Int) + (d + moveSum (rest.take k)) ≤ 29999 := fun k => by
      simpa only [List.take_succ_cons, moveSum_cons hd] using hbound (k + 1)
    obtain ⟨h0, h1⟩ : 0 ≤ (s.dp.toNat : Int) + d ∧ (s.dp.toNat : Int) + d ≤ 29999 := by simpa using hrange 0
    obtain ⟨t, hexec, hrun, hdp, hmem⟩ := exec_move hd h0 h1
    obtain ⟨u, hexecs, hrunU, hdpU, hmemU⟩ := ih t hrest hrun fun k => by
      rw [hdp, Int.add_assoc]
      exact hrange k
    refine ⟨u, (execAll_cons hexec rest).trans hexecs, hrunU, ?_, hmemU.trans hmem⟩
    rw [hdpU, hdp, moveSum_cons hd, Int.add_assoc]

/-- Settles O8: the two effects of a MoveLeft, told apart by the exact comparison of n with dp. -/
theorem moveLeftEffect : Obligations.MoveLeftEffect := fun n s =>
  ⟨rfl, fun _ hout => (Effect.leftOut n hout).exec_faultEntered,
    fun _ hin hp => (Effect.left n hin).exec_setDp_retire (by omega) hp⟩

/-- Settles O9: the two effects of a MoveRight, told apart by the exact sum, which fits dp where it is below 30000. -/
theorem moveRightEffect : Obligations.MoveRightEffect := fun n s =>
  ⟨rfl, fun _ hout => (Effect.rightOut n hout).exec_faultEntered,
    fun _ hin hp => (Effect.right n hin).exec_setDp_retire (by omega) hp⟩

end Sys2Proof.Machine
end

section
/-! PROOFS. The cell arithmetic family (43_cell_arith.md): the laws of the remainder mod 256, what overwriting the cell
at dp leaves of the tape, and what Increment and Decrement give. -/

namespace Sys2Proof.Machine

/-! ### Arithmetic mod 256 (R160, R161, R162) -/

theorem addMod_addMod (v : Byte) (a b : Nat) : addMod (addMod v a) b = addMod v (a + b) := by
  apply BitVec.eq_of_toNat_eq
  simp only [addMod_toNat]
  omega

theorem addMod_of_mod_eq_zero (v : Byte) {n : Nat} (h : n % 256 = 0) : addMod v n = v := by
  apply BitVec.eq_of_toNat_eq
  rw [addMod_toNat]
  omega

/-- To subtract is to add the complement of the amount. -/
theorem subMod_eq_addMod (v : Byte) (n : Nat) : subMod v n = addMod v ((256 - n % 256) % 256) := by
  apply BitVec.eq_of_toNat_eq
  rw [subMod_toNat, addMod_toNat]
  omega

theorem subMod_of_mod_eq_zero (v : Byte) {n : Nat} (h : n % 256 = 0) : subMod v n = v := by
  rw [subMod_eq_addMod, addMod_of_mod_eq_zero v (by omega)]

theorem subMod_addMod (v : Byte) (n : Nat) : subMod (addMod v n) n = v := by
  rw [subMod_eq_addMod, addMod_addMod, addMod_of_mod_eq_zero v (by omega)]

/-- The result of a subtraction as the remainder of the exact, signed difference. -/
theorem subMod_toInt (v : Byte) (n : Nat) : ((subMod v n).toNat : Int) = ((v.toNat : Int) - n) % 256 := by
  rw [subMod_toNat]
  omega

/-! ### Writing the cell at dp -/

/-- What an instruction answers whose effect is to set the cell at dp and retire: the new cell, the next pc, and the
frame. -/
theorem Effect.exec_setCell_retire {s : State} {i : Instr} {v : Byte} (he : Effect s i ((s.setCell v).retire s.pc))
    (hm : Memory.wf s.mem = true) (hp : s.pc.toNat < s.progLen.toNat) :
    ∃ t, exec i s = .next t ∧ Memory.read t.mem s.dp.toNat = v ∧ SameCellsBut s.dp.toNat s t ∧ t.dp = s.dp ∧
      t.pc.toNat = s.pc.toNat + 1 ∧ t.runState = .run ∧ t.output = s.output ∧ SameProgram s t ∧ SameRecord s t ∧
      SameInput s t :=
  ⟨_, exec_of_effect he, Memory.read_write_self hm _ v, fun _ ha => Memory.read_write_ne s.mem v ha, rfl,
    pc_succ_toNat (by omega), rfl, rfl, ⟨rfl, rfl, rfl⟩, ⟨rfl, rfl, rfl⟩, ⟨rfl, rfl, rfl, rfl⟩⟩

theorem State.cell_setCell_retire {s : State} (hm : Memory.wf s.mem = true) (v : Byte) (p : Pc) :
    ((s.setCell v).retire p).cell = v :=
  Memory.read_write_self hm s.dp.toNat v

theorem Memory.read_write {m : Memory} (hm : Memory.wf m = true) (a : Nat) (v : Byte) (b : Nat) :
    Memory.read (Memory.write m a v) b = if b = a then v else Memory.read m b := by
  split
  · next h => rw [h, Memory.read_write_self hm]
  · next h => rw [Memory.read_write_ne m v h]

/-- Setting the cell at dp to what it holds leaves the cells as they were. -/
theorem sameCells_setCell_cell {s : State} (hm : Memory.wf s.mem = true) (p : Pc) :
    SameCells s ((s.setCell s.cell).retire p) := by
  intro a
  rw [State.retire_mem, State.setCell_mem, Memory.read_write hm, State.cell]
  split
  · next h => rw [h]
  · rfl

/-- Of two instructions that set the cell at dp, the second alone decides the cells. -/
theorem sameCells_setCell_setCell {s : State} (hm : Memory.wf s.mem = true) (hd : s.dp.toNat < cells) (v w : Byte)
    (p q r : Pc) : SameCells ((((s.setCell v).retire p).setCell w).retire q) ((s.setCell w).retire r) := by
  intro a
  simp only [State.retire_mem, State.setCell_mem, State.retire_dp, State.setCell_dp, Memory.read_write hm,
    Memory.read_write (Memory.wf_write hm hd v)]
  split <;> rfl

theorem SameCells.symm {s t : State} (h : SameCells s t) : SameCells t s := fun a => (h a).symm

theorem SameCells.trans {s t u : State} (h : SameCells s t) (h' : SameCells t u) : SameCells s u :=
  fun a => (h' a).trans (h a)

/-! ### The laws (R162) -/

theorem exec_decrement_eq_increment {s : State} (hd : s.dp.toNat < cells) {n m : Operand}
    (h : m.toNat = (256 - n.toNat % 256) % 256) : exec (.decrement n) s = exec (.increment m) s := by
  rw [exec_of_effect (.dec n hd), exec_of_effect (.inc m hd), subMod_eq_addMod, h]

section Laws

variable {s : State} (hm : Memory.wf s.mem = true) (hd : s.dp.toNat < cells)
include hm hd

theorem increment_increment {a b c : Operand} (hc : c.toNat = a.toNat + b.toNat) :
    ∃ t u v, exec (.increment a) s = .next t ∧ exec (.increment b) t = .next u ∧ exec (.increment c) s = .next v ∧
      SameCells u v := by
  refine ⟨_, _, _, exec_of_effect (.inc a hd), exec_of_effect (.inc b hd), exec_of_effect (.inc c hd), ?_⟩
  rw [State.cell_setCell_retire hm, addMod_addMod, hc]
  exact sameCells_setCell_setCell hm hd _ _ _ _ _

theorem increment_decrement (n : Operand) :
    ∃ t u, exec (.increment n) s = .next t ∧ exec (.decrement n) t = .next u ∧ SameCells s u := by
  refine ⟨_, _, exec_of_effect (.inc n hd), exec_of_effect (.dec n hd), ?_⟩
  rw [State.cell_setCell_retire hm, subMod_addMod]
  exact (sameCells_setCell_cell hm s.pc).trans (sameCells_setCell_setCell hm hd _ _ _ _ _).symm

theorem sameCells_of_count_mod_eq_zero {n : Operand} (h : n.toNat % 256 = 0) :
    ∃ t u, exec (.increment n) s = .next t ∧ exec (.decrement n) s = .next u ∧ SameCells s t ∧ SameCells s u := by
  refine ⟨_, _, exec_of_effect (.inc n hd), exec_of_effect (.dec n hd), ?_⟩
  rw [addMod_of_mod_eq_zero _ h, subMod_of_mod_eq_zero _ h]
  exact ⟨sameCells_setCell_cell hm _, sameCells_setCell_cell hm _⟩

end Laws

/-! ### The statements -/

/-- Settles O10: the effect of an Increment sets the cell at dp, to the sum mod 256. -/
theorem incrementEffect : Obligations.IncrementEffect := by
  refine fun n s => ⟨rfl, fun _ hm hd hp => ?_⟩
  obtain ⟨t, hexec, hcell, hframe⟩ := (Effect.inc n hd).exec_setCell_retire hm hp
  exact ⟨t, hexec, hcell ▸ addMod_toNat s.cell n.toNat, hframe⟩

/-- Settles O11: the effect of a Decrement sets the cell at dp, to the remainder of the signed difference. -/
theorem decrementEffect : Obligations.DecrementEffect := by
  refine fun n s => ⟨rfl, fun _ hm hd hp => ?_⟩
  obtain ⟨t, hexec, hcell, hframe⟩ := (Effect.dec n hd).exec_setCell_retire hm hp
  exact ⟨t, hexec, hcell ▸ subMod_toInt s.cell n.toNat, hframe⟩

/-- Settles O12, law by law: each is a law of the remainder mod 256 at the cell of dp, and no other cell is written. -/
theorem cellArithmeticLaws : Obligations.CellArithmeticLaws := fun _ hm hd =>
  ⟨fun _ _ _ _ _ hc => increment_increment hm hd hc, fun n _ => increment_decrement hm hd n,
    fun _ _ _ h _ => exec_decrement_eq_increment hd h, fun _ _ h => sameCells_of_count_mod_eq_zero hm hd h⟩

end Sys2Proof.Machine
end

section
/-! PROOFS. The input and output family (44_io.md): what ReadByte and WriteByte give, the input stream as a step and an
action of the host leave it, and the wait. -/

namespace Sys2Proof.Machine

/-! ### End-of-input (R172) -/

theorem State.inRead_eq_eof {s : State} : s.inRead = .eof ↔ s.input = [] ∧ s.inputClosed = true := by
  refine ⟨fun h => ?_, fun ⟨hi, hc⟩ => State.inRead_closed hi hc⟩
  unfold State.inRead at h
  split at h
  · cases h
  · exact ⟨‹_›, ‹_›⟩
  · cases h

/-! ### What a step takes of the input stream (R172) -/

/-- An instruction leaves the stream and the record of taken bytes as they were, or it is a ReadByte that takes the next
byte into the cell at dp and retires. -/
theorem Effect.input_eq_or_take {s t : State} {i : Instr} (he : Effect s i t) :
    (t.input = s.input ∧ t.consumed = s.consumed) ∨
    (∃ x, i = .readByte x) ∧ ∃ b rest, s.input = b :: rest ∧ t = (s.takeInput.setCell b).retire s.pc := by
  cases he with
  | readTake x b rest hi hd => exact .inr ⟨⟨x, rfl⟩, b, rest, hi, rfl⟩
  | _ => exact .inl ⟨rfl, rfl⟩

/-- Cancel and halt take no byte, so a step takes one only as the instruction at pc does. -/
theorem step_input_eq_or_take {s t : State} (h : step s = .next t) :
    (t.input = s.input ∧ t.consumed = s.consumed) ∨
    s.executes ∧ (∃ x, s.current = .readByte x) ∧
      ∃ b rest, s.input = b :: rest ∧ t = (s.takeInput.setCell b).retire s.pc := by
  obtain ⟨-, -, -, -, rfl⟩ | ⟨-, -, -, -, rfl⟩ | ⟨hx, i, rfl, he⟩ := step_cases h
  · exact .inl ⟨rfl, rfl⟩
  · exact .inl ⟨rfl, rfl⟩
  · exact he.input_eq_or_take.imp_right fun htake => ⟨hx, htake⟩

theorem State.takeInput_input_of_cons {s : State} {b : Byte} {rest : List Byte} (hi : s.input = b :: rest) :
    s.takeInput.input = rest := by simp [hi]

theorem State.takeInput_consumed_of_cons {s : State} {b : Byte} {rest : List Byte} (hi : s.input = b :: rest) :
    s.takeInput.consumed = s.consumed ++ [b] := by simp [hi]

/-! ### End-of-input stays (R170, R172) -/

/-- With no byte left a step can take none, and no step opens the stream again. -/
theorem step_keeps_eof {s t : State} (h : s.inRead = .eof) (hstep : step s = .next t) : t.inRead = .eof := by
  obtain ⟨hi, hc⟩ := State.inRead_eq_eof.mp h
  obtain ⟨-, -, hclosed⟩ := programIsImmutable s t hstep
  obtain ⟨hinput, -⟩ | ⟨-, -, b, rest, hcons, -⟩ := step_input_eq_or_take hstep
  · exact State.inRead_closed (hinput.trans hi) (hclosed.trans hc)
  · exact absurd (hi.symm.trans hcons) nofun

/-- The host's one action that adds to the stream needs it open, and none opens it. -/
theorem hostAct_keeps_eof {a : HostAction} {s t : State} (h : s.inRead = .eof) (hact : hostAct a s = .next t) :
    t.inRead = .eof := by
  obtain ⟨hi, hc⟩ := State.inRead_eq_eof.mp h
  obtain ⟨-, rfl⟩ | ⟨-, -, -, rfl⟩ | ⟨i, w, -, -, -, rfl⟩ | ⟨v, -, -, rfl⟩ | ⟨b, -, hopen, -⟩ | ⟨-, rfl⟩ |
    ⟨l, -, -, rfl⟩ | ⟨-, rfl⟩ := hostAct_cases hact
  · exact State.inRead_closed hi hc
  · exact State.inRead_closed hi hc
  · exact State.inRead_closed hi hc
  · exact State.inRead_closed hi hc
  · exact absurd (hc.symm.trans hopen) nofun
  · exact State.inRead_closed hi rfl
  · exact State.inRead_closed hi hc
  · exact h

/-! ### The wait (R138, R173) -/

theorem steps_succ {s t : State} (h : step s = .next t) (k : Nat) : steps (k + 1) s = steps k t := by
  simp only [steps, h]

/-- A state that steps to itself is left by no number of steps. -/
theorem steps_of_step_self {s : State} (h : step s = .next s) (k : Nat) : steps k s = .next s := by
  induction k with
  | zero => rfl
  | succ k ih => rw [steps_succ h, ih]

/-- Nothing that decides whether an instruction executes is changed by the wait. -/
theorem State.executes.wait {s : State} (h : s.executes) : s.wait.executes := by
  obtain ⟨-, hw, hc, hp⟩ := h
  exact ⟨.inr rfl, hw, hc, hp⟩

theorem step_of_readWait {s : State} (hx : s.executes) {x : Operand} (hr : s.current = .readByte x)
    (hi : s.input = []) (hc : s.inputClosed = false) : step s = .next s.wait :=
  step_of_effect hx (hr ▸ .readWait x hi hc)

/-! ### The statements -/

/-- Settles O13: the two effects of a ReadByte before end-of-input. -/
theorem readByteEffect : Obligations.ReadByteEffect := by
  refine fun s => ⟨rfl, fun hi hc => exec_of_effect (.readWait 0 hi hc), fun b rest hm hd hp hi => ?_⟩
  exact ⟨_, exec_of_effect (.readTake 0 b rest hi hd), Memory.read_write_self hm _ b,
    fun _ ha => Memory.read_write_ne s.mem b ha, State.takeInput_input_of_cons hi,
    State.takeInput_consumed_of_cons hi, rfl, rfl, rfl, pc_succ_toNat (by omega), rfl, rfl, ⟨rfl, rfl, rfl⟩,
    ⟨rfl, rfl, rfl⟩⟩

/-- Settles O14: one effect of a ReadByte for each policy. -/
theorem readByteAtEndOfInput : Obligations.ReadByteAtEndOfInput := fun s hm hd hp hi hc =>
  ⟨fun hpol => (Effect.readFault 0 hi hc hpol).exec_faultEntered,
    fun hpol => (Effect.readZero 0 hi hc hpol hd).exec_setCell_retire hm hp,
    fun hpol => ⟨s.retire s.pc, exec_of_effect (.readKeep 0 hi hc hpol), rfl, rfl, pc_succ_toNat (by omega), rfl, rfl,
      ⟨rfl, rfl, rfl⟩, ⟨rfl, rfl, rfl⟩, ⟨rfl, rfl, rfl, rfl⟩⟩⟩

/-- Settles O15: neither a step nor an action of the host ends end-of-input. -/
theorem endOfInputIsSticky : Obligations.EndOfInputIsSticky := by
  rintro s t h (hstep | ⟨a, hact⟩)
  · exact step_keeps_eof h hstep
  · exact hostAct_keeps_eof h hact

/-- Settles O16: the wait leads to a state in which the ReadByte waits again, and that state steps to itself. -/
theorem waitHoldsEveryPieceOfState : Obligations.WaitHoldsEveryPieceOfState := by
  intro s hx hr hi hc
  have hwait : step s = .next s.wait := step_of_readWait hx hr hi hc
  have hself : step s.wait = .next s.wait := step_of_readWait hx.wait hr hi hc
  exact ⟨hwait, fun k => (steps_succ hwait k).trans (steps_of_step_self hself k)⟩

/-- Settles O37: a step that takes a byte moves it from the head of the stream to the end of the record. -/
theorem inputTakenInOrder : Obligations.InputTakenInOrder := by
  intro s t h hstep
  obtain ⟨hinput, hconsumed⟩ | ⟨hx, hread, b, rest, hi, rfl⟩ := step_input_eq_or_take hstep
  · exact ⟨by rw [hinput, hconsumed], fun hne => absurd hinput hne⟩
  · have hrest := State.takeInput_input_of_cons hi
    have htaken := State.takeInput_consumed_of_cons hi
    refine ⟨?_, fun _ => ⟨hx, hread, rfl, b, hi.trans (congrArg (b :: ·) hrest.symm), htaken,
      Memory.read_write_self h.memWf _ b⟩⟩
    calc s.takeInput.consumed ++ s.takeInput.input = (s.consumed ++ [b]) ++ rest := by rw [htaken, hrest]
      _ = s.consumed ++ s.input := by rw [hi, List.append_assoc, List.singleton_append]

/-- Settles O17: the effect of a WriteByte. -/
theorem writeByteEffect : Obligations.WriteByteEffect := fun s =>
  ⟨rfl, fun hd hp => ⟨_, exec_of_effect (.write 0 hd), rfl, rfl, rfl, pc_succ_toNat (by omega), rfl,
    ⟨rfl, rfl, rfl⟩, ⟨rfl, rfl, rfl⟩, ⟨rfl, rfl, rfl, rfl⟩⟩⟩

end Sys2Proof.Machine
end

section
/-! PROOFS. The jumps family (45_jumps.md): the two ways of a jump as one choice on the cell at dp, what it gives, and
the loop of a bracket pair. -/

namespace Sys2Proof.Machine

/-! ### A jump as a choice on the cell (R190, R191) -/

theorem Effect.of_jumpIfZero (u : Operand) {s : State} (hd : s.dp.toNat < cells) :
    Effect s (.jumpIfZero u) (s.retire (if s.cell = 0 then targetOf u else s.pc)) := by
  split
  · next hz => exact .zeroTaken u hd hz
  · next hz => exact .zeroThrough u hd hz

theorem Effect.of_jumpIfNonZero (u : Operand) {s : State} (hd : s.dp.toNat < cells) :
    Effect s (.jumpIfNonZero u) (s.retire (if s.cell = 0 then s.pc else targetOf u)) := by
  split
  · next hz => exact .nonZeroThrough u hd hz
  · next hz => exact .nonZeroTaken u hd hz

/-- What an instruction answers whose effect is to retire by a choice on the cell: the next pc on exact numbers for
either choice, and the frame. -/
theorem Effect.exec_branch {s : State} {i : Instr} {p q : Pc} {m n : Nat}
    (he : Effect s i (s.retire (if s.cell = 0 then p else q))) (hp : (p + 1).toNat = m) (hq : (q + 1).toNat = n) :
    ∃ t, exec i s = .next t ∧ (s.cell = 0 → t.pc.toNat = m) ∧ (s.cell ≠ 0 → t.pc.toNat = n) ∧
      t.mem = s.mem ∧ t.dp = s.dp ∧ t.runState = .run ∧ t.output = s.output ∧
      SameProgram s t ∧ SameRecord s t ∧ SameInput s t := by
  refine ⟨_, exec_of_effect he, fun hz => ?_, fun hz => ?_, rfl, rfl, rfl, rfl, ⟨rfl, rfl, rfl⟩, ⟨rfl, rfl, rfl⟩,
    ⟨rfl, rfl, rfl, rfl⟩⟩
  · rw [State.retire_pc, if_pos hz, hp]
  · rw [State.retire_pc, if_neg hz, hq]

/-! ### The loop of a bracket pair (R192) -/

/-- Either bracket of a pair makes the same choice: past the closing one where the cell is 0, past the opening one where
it is not. One of the two ways is the bracket's own target, the other its own index. -/
theorem Effect.of_bracketPair {s : State} {i j : Operand} (hd : s.dp.toNat < cells) (hx : s.executes)
    (hopen : s.fetch i.toNat = .jumpIfZero j) (hclose : s.fetch j.toNat = .jumpIfNonZero i)
    (hpc : s.pc.toNat = i.toNat ∨ s.pc.toNat = j.toNat) :
    ∃ p q : Pc, (p + 1).toNat = j.toNat + 1 ∧ (q + 1).toNat = i.toNat + 1 ∧
      Effect s s.current (s.retire (if s.cell = 0 then p else q)) := by
  obtain hi | hj := hpc
  · rw [State.current, hi, hopen]
    exact ⟨targetOf j, s.pc, targetOf_succ_toNat j, hi ▸ hx.pc_succ_toNat, .of_jumpIfZero j hd⟩
  · rw [State.current, hj, hclose]
    exact ⟨s.pc, targetOf i, hj ▸ hx.pc_succ_toNat, targetOf_succ_toNat i, .of_jumpIfNonZero i hd⟩

/-! ### The statements -/

/-- Settles O29: the two brackets of a pair choose alike, and the step is their effect. -/
theorem bracketPairIsWhile : Obligations.BracketPairIsWhile := by
  intro s i j h hx hopen hclose hpc
  obtain ⟨p, q, hp, hq, he⟩ := Effect.of_bracketPair h.dpInRange hx hopen hclose hpc
  obtain ⟨t, hexec, hzero, hnonZero, hmem, hdp, hrun, -⟩ := he.exec_branch hp hq
  exact ⟨t, (step_of_executes hx).trans hexec, hrun, hmem, hdp, hnonZero, hzero⟩

/-- Settles O18: the target where the cell is 0, the jump's own index where it is not. -/
theorem jumpIfZeroEffect : Obligations.JumpIfZeroEffect := fun u _ =>
  ⟨rfl, fun hd hp => (Effect.of_jumpIfZero u hd).exec_branch (targetOf_succ_toNat u) (pc_succ_toNat (by omega))⟩

/-- Settles O19: the jump's own index where the cell is 0, the target where it is not. -/
theorem jumpIfNonZeroEffect : Obligations.JumpIfNonZeroEffect := by
  refine fun u s => ⟨rfl, fun hd hp => ?_⟩
  obtain ⟨t, hexec, hzero, hnonZero, hframe⟩ :=
    (Effect.of_jumpIfNonZero u hd).exec_branch (pc_succ_toNat (by omega)) (targetOf_succ_toNat u)
  exact ⟨t, hexec, hnonZero, hzero, hframe⟩

end Sys2Proof.Machine
end

section
/-! PROOFS. The exceptions family (60_exceptions.md): the conditions that raise each cause, the one step that follows
from them, and the cancel level. -/

namespace Sys2Proof.Machine

/-! ### The conditions of the causes (R201, R202, R203, R209) -/

/-- `Raises s c`: the state `s` meets the condition under which a step raises the cause `c`. `raises_iff_faulted` ties it
to the step. -/
inductive Raises (s : State) : FaultCause → Prop where
  | cancelled (hc : s.cfg.hasCancel = true) (hl : s.cancel = true) : Raises s .cancelled
  | leftOut {n : Operand} (hx : s.executes) (hi : s.current = .moveLeft n) (hn : s.dp.toNat < n.toNat) :
      Raises s .cellRangeError
  | rightOut {n : Operand} (hx : s.executes) (hi : s.current = .moveRight n) (hn : cells ≤ s.dp.toNat + n.toNat) :
      Raises s .cellRangeError
  | readFault {x : Operand} (hx : s.executes) (hi : s.current = .readByte x) (hin : s.input = [])
      (hcl : s.inputClosed = true) (hp : s.cfg.eofPolicy = .fault) : Raises s .inputExhausted

theorem Raises.cause_cases {s : State} {c : FaultCause} (h : Raises s c) :
    c = .cancelled ∨ c = .cellRangeError ∨ c = .inputExhausted := by
  cases h with
  | cancelled hc hl => exact .inl rfl
  | leftOut hx hi hn => exact .inr (.inl rfl)
  | rightOut hx hi hn => exact .inr (.inl rfl)
  | readFault hx hi hin hcl hp => exact .inr (.inr rfl)

theorem Raises.ne_none {s : State} {c : FaultCause} (h : Raises s c) : c ≠ .none := by
  obtain rfl | rfl | rfl := h.cause_cases <;> decide

theorem raises_cancelled_iff {s : State} : Raises s .cancelled ↔ s.cfg.hasCancel = true ∧ s.cancel = true :=
  ⟨fun | .cancelled hc hl => ⟨hc, hl⟩, fun ⟨hc, hl⟩ => .cancelled hc hl⟩

/-- The condition on the exact new cursor (R202). -/
theorem raises_cellRangeError_iff {s : State} :
    Raises s .cellRangeError ↔ s.executes ∧ ∃ n : Operand,
      (s.current = .moveLeft n ∧ (s.dp.toNat : Int) - n.toNat < 0) ∨
      (s.current = .moveRight n ∧ s.dp.toNat + n.toNat ≥ 30000) := by
  constructor
  · intro h
    cases h with
    | leftOut hx hi hn => exact ⟨hx, _, .inl ⟨hi, by omega⟩⟩
    | rightOut hx hi hn => exact ⟨hx, _, .inr ⟨hi, hn⟩⟩
  · rintro ⟨hx, n, ⟨hi, hn⟩ | ⟨hi, hn⟩⟩
    · exact .leftOut hx hi (by omega)
    · exact .rightOut hx hi hn

theorem raises_inputExhausted_iff {s : State} :
    Raises s .inputExhausted ↔ s.executes ∧ s.cfg.eofPolicy = .fault ∧ s.input = [] ∧ s.inputClosed = true ∧
      ∃ x, s.current = .readByte x :=
  ⟨fun | .readFault hx hi hin hcl hp => ⟨hx, hp, hin, hcl, _, hi⟩,
    fun ⟨hx, hp, hin, hcl, _, hi⟩ => .readFault hx hi hin hcl hp⟩

/-! ### A step faults exactly where a cause is raised (R204) -/

/-- An executing instruction that ends in FAULTED meets the condition of a cause and enters the fault with it. -/
theorem Effect.raises_of_faulted {s t : State} {i : Instr} (he : Effect s i t) (hx : s.executes) (hi : s.current = i)
    (hf : t.runState = .faulted) : ∃ c, Raises s c ∧ t = s.enterFault c s.pc s.dp := by
  cases he with
  | leftOut n hn => exact ⟨_, .leftOut hx hi hn, rfl⟩
  | rightOut n hn => exact ⟨_, .rightOut hx hi hn, rfl⟩
  | readFault x hin hcl hp => exact ⟨_, .readFault hx hi hin hcl hp, rfl⟩
  | _ => cases hf

/-- A step that ends in FAULTED meets the condition of a cause and enters the fault with it. -/
theorem raises_of_step_faulted {s t : State} (h : step s = .next t) (hf : t.runState = .faulted) :
    ∃ c, Raises s c ∧ t = s.enterFault c s.pc s.dp := by
  obtain ⟨-, -, hc, hl, rfl⟩ | ⟨-, -, -, -, rfl⟩ | ⟨hx, i, hi, he⟩ := step_cases h
  · exact ⟨_, .cancelled hc hl, rfl⟩
  · cases hf
  · exact he.raises_of_faulted hx hi hf

/-- Where the condition of a cause is met, the step of a run is the fault entry with that cause. -/
theorem step_of_raises {s : State} {c : FaultCause} (ha : s.active) (hw : s.imageWf = true) (h : Raises s c) :
    step s = .next (s.enterFault c s.pc s.dp) := by
  cases h with
  | cancelled hc hl => exact step_of_cancelAsserted ha hw (by rw [State.cancelAsserted, hc, hl, Bool.and_self])
  | leftOut hx hi hn => exact step_of_effect hx (hi ▸ .leftOut _ hn)
  | rightOut hx hi hn => exact step_of_effect hx (hi ▸ .rightOut _ hn)
  | readFault hx hi hin hcl hp => exact step_of_effect hx (hi ▸ .readFault _ hin hcl hp)

theorem raises_iff_faulted {s t : State} {c : FaultCause} (h : step s = .next t) :
    (t.runState = .faulted ∧ t.faultCause = c) ↔ Raises s c := by
  constructor
  · rintro ⟨hf, rfl⟩
    obtain ⟨c, hr, rfl⟩ := raises_of_step_faulted h hf
    exact hr
  · intro hr
    obtain ⟨ha, hw, -⟩ := step_next_active h
    cases h.symm.trans (step_of_raises ha hw hr)
    exact ⟨rfl, rfl⟩

/-! ### The cancel level of a block without HAS_CANCEL (R209) -/

/-- No effect of an instruction reads or writes the cancel level. -/
theorem Effect.withCancel {s t : State} {i : Instr} (he : Effect s i t) (level : Bool) :
    Effect { s with cancel := level } i { t with cancel := level } := by
  cases he with
  | leftOut n h => exact .leftOut n h
  | left n h => exact .left n h
  | rightOut n h => exact .rightOut n h
  | right n h => exact .right n h
  | inc n hd => exact .inc n hd
  | dec n hd => exact .dec n hd
  | readWait x hi hc => exact .readWait x hi hc
  | readTake x b rest hi hd => exact .readTake x b rest hi hd
  | readFault x hi hc hp => exact .readFault x hi hc hp
  | readZero x hi hc hp hd => exact .readZero x hi hc hp hd
  | readKeep x hi hc hp => exact .readKeep x hi hc hp
  | write x hd => exact .write x hd
  | zeroTaken u hd hz => exact .zeroTaken u hd hz
  | zeroThrough u hd hz => exact .zeroThrough u hd hz
  | nonZeroTaken u hd hz => exact .nonZeroTaken u hd hz
  | nonZeroThrough u hd hz => exact .nonZeroThrough u hd hz

theorem State.cancelAsserted_of_not_hasCancel {s : State} (hn : s.cfg.hasCancel = false) :
    s.cancelAsserted = false := by
  rw [State.cancelAsserted, hn, Bool.false_and]

theorem State.executes.withCancel {s : State} (h : s.executes) (hn : s.cfg.hasCancel = false) (level : Bool) :
    State.executes { s with cancel := level } := by
  obtain ⟨ha, hw, -, hp⟩ := h
  exact ⟨ha, hw, State.cancelAsserted_of_not_hasCancel hn, hp⟩

/-- The same step is taken under every level: halt and the instruction do not read it. -/
theorem step_withCancel {s t : State} (hn : s.cfg.hasCancel = false) (h : step s = .next t) (level : Bool) :
    step { s with cancel := level } = .next { t with cancel := level } := by
  obtain ⟨-, -, hc, -, -⟩ | ⟨ha, hw, -, hp, rfl⟩ | ⟨hx, i, rfl, he⟩ := step_cases h
  · exact absurd (hn.symm.trans hc) nofun
  · exact step_of_programEnd ha hw (State.cancelAsserted_of_not_hasCancel hn) hp
  · exact step_of_effect (hx.withCancel hn level) (he.withCancel level)

/-! ### The statements -/

/-- Settles O24: asserted cancel raises its cause whatever pc is, and without HAS_CANCEL no step reads the level. -/
theorem cancelComesFirst : Obligations.CancelComesFirst :=
  ⟨fun s ha hw hc hl => ⟨_, step_of_raises ha hw (.cancelled hc hl), s.faultEntered_enterFault .cancelled⟩,
    fun _ _ level hn h => step_withCancel hn h level⟩

/-- Settles O38: a step that ends in FAULTED is the fault entry with the cause it raised. -/
theorem faultsArePrecise : Obligations.FaultsArePrecise := by
  intro s t h hf
  obtain ⟨c, hr, rfl⟩ := raises_of_step_faulted h hf
  exact ⟨hr.ne_none, s.faultEntered_enterFault c, step_of_faulted rfl⟩

/-- Settles O39: the condition of each cause, written out. -/
theorem faultCauses : Obligations.FaultCauses := fun _ _ _ h =>
  ⟨(raises_iff_faulted h).trans raises_cancelled_iff, (raises_iff_faulted h).trans raises_cellRangeError_iff,
    (raises_iff_faulted h).trans raises_inputExhausted_iff,
    fun hf => ((raises_iff_faulted h).mp ⟨hf, rfl⟩).cause_cases⟩

end Sys2Proof.Machine
end

section
/-! PROOFS. The reset and hazards family (70_reset_and_hazards.md): the program changes under reset only, and the boot
order ends in a run of exactly the image the loader gave. -/

namespace Sys2Proof.Machine

/-! ### Instruction memory after the writes of an image (R231 step 2) -/

/-- Instruction memory after the words have been written from index `i` on, one after the other. -/
def Imem.writeWords : Imem → Nat → List Word → Imem
  | m, _, [] => m
  | m, i, w :: ws => Imem.writeWords (Imem.write m i w) (i + 1) ws

theorem Imem.read_writeWords_below (m : Imem) {i j : Nat} (ws : List Word) (h : j < i) :
    Imem.read (Imem.writeWords m i ws) j = Imem.read m j := by
  induction ws generalizing m i with
  | nil => rfl
  | cons w ws ih => rw [Imem.writeWords, ih _ (by omega), Imem.read_write_ne m w (by omega)]

/-- Words other than 0 read back from any instruction memory, in canonical form or not. -/
theorem Imem.read_writeWords (m : Imem) (i : Nat) {ws : List Word} (hne : ∀ w ∈ ws, w ≠ 0) {k : Nat} {w : Word}
    (hw : ws[k]? = some w) : Imem.read (Imem.writeWords m i ws) (i + k) = w := by
  induction ws generalizing m i k with
  | nil => simp at hw
  | cons v ws ih =>
    obtain ⟨hv, hws⟩ := List.forall_mem_cons.mp hne
    cases k with
    | zero =>
      obtain rfl : v = w := by simpa using hw
      rw [Imem.writeWords, Imem.read_writeWords_below _ ws (by omega)]
      exact Imem.read_write_self_of_ne m i hv
    | succ k =>
      have hk := ih (Imem.write m i v) (i + 1) hws hw
      rwa [Nat.add_right_comm, Nat.add_assoc] at hk

/-! ### A WF image (R115) -/

/-- WF looks at no instruction at or above N. -/
theorem wfImage_congr {depth n : Nat} {fetch fetch' : Nat → Instr} (h : ∀ i, i < n → fetch' i = fetch i)
    (hw : wfImage depth fetch n = true) : wfImage depth fetch' n = true := by
  obtain ⟨hlen, hall⟩ := wfImage_eq_true.mp hw
  refine wfImage_eq_true.mpr ⟨hlen, fun i hi => ?_⟩
  obtain ⟨hcount, hzero, hpair⟩ := hall i hi
  rw [wfPair_eq_true] at hpair
  obtain ⟨hopen, hclose⟩ := hpair
  rw [h i hi]
  refine ⟨hcount, hzero, wfPair_eq_true.mpr ⟨fun t ht => ?_, fun t ht => ?_⟩⟩
  · obtain ⟨hit, htn, hback⟩ := hopen t ht
    exact ⟨hit, htn, by rwa [h t htn]⟩
  · obtain ⟨hti, hback⟩ := hclose t ht
    exact ⟨hti, by rwa [h t (by omega)]⟩

theorem imageFetch_of_getElem? {img : Image} {i : Nat} {w : Word} (h : img.words[i]? = some w) :
    imageFetch img i = decode w := by
  rw [imageFetch, List.getD_eq_getElem?_getD, h, Option.getD_some]

/-- The word 0 is a MoveLeft of count 0, which no WF image holds (R76). -/
theorem ne_zero_of_imageIsWf {depth : Nat} {img : Image} (h : imageIsWf depth img = true) :
    ∀ w ∈ img.words, w ≠ 0 := by
  rintro w hw rfl
  obtain ⟨i, hi⟩ := List.mem_iff_getElem?.mp hw
  obtain ⟨hcount, -, -⟩ := (wfImage_eq_true.mp h).2 i (List.getElem?_eq_some_iff.mp hi).1
  rw [imageFetch_of_getElem? hi] at hcount
  exact absurd hcount (by decide)

theorem length_le_of_imageIsWf {depth : Nat} {img : Image} (h : imageIsWf depth img = true) :
    img.words.length ≤ depth := (wfImage_eq_true.mp h).1

/-! ### The state the host's boot actions end in (R231) -/

/-- The machine with an image written: its words from index 0 on, and PROG_LEN their number. -/
def State.withImage (s : State) (img : Image) : State :=
  { s with
    imem := Imem.writeWords s.imem 0 img.words
    progLen := BitVec.ofNat 30 img.words.length }

section WithImage

variable (s : State) {img : Image} (h : imageIsWf s.cfg.imemDepth.val img = true)
include h

theorem State.withImage_read {i : Nat} {w : Word} (hw : img.words[i]? = some w) :
    Imem.read (s.withImage img).imem i = w := by
  have hread := Imem.read_writeWords s.imem 0 (ne_zero_of_imageIsWf h) hw
  rwa [Nat.zero_add] at hread

/-- PROG_LEN is wide enough for the largest IMEM_DEPTH (R9, D4). -/
theorem State.withImage_progLen_toNat : (s.withImage img).progLen.toNat = img.words.length := by
  have hlen := length_le_of_imageIsWf h
  have hdepth : s.cfg.imemDepth.val < 2 ^ 29 + 1 := s.cfg.imemDepth.isLt
  exact Nat.mod_eq_of_lt (by omega)

theorem State.imageWf_withImage : (s.withImage img).imageWf = true := by
  rw [State.imageWf, s.withImage_progLen_toNat h]
  refine wfImage_congr (fun i hi => ?_) h
  have hw : img.words[i]? = some img.words[i] := List.getElem?_eq_getElem hi
  rw [State.fetch, s.withImage_read h hw, imageFetch_of_getElem? hw]

end WithImage

theorem hostAct_writeImem_of_reset {s : State} (hr : s.runState = .reset) {i : Nat} (hi : i < s.cfg.imemDepth.val)
    (w : Word) : hostAct (.writeImem i w) s = .next { s with imem := Imem.write s.imem i w } :=
  (if_pos hr).trans (if_pos hi)

/-- In RESET the writes of words that fit all land, and the actions after them go on from there. -/
theorem hostActs_imageWrites_append {s : State} (hr : s.runState = .reset) {i : Nat} {ws : List Word}
    (hfit : i + ws.length ≤ s.cfg.imemDepth.val) (rest : List HostAction) :
    hostActs (imageWrites i ws ++ rest) s = hostActs rest { s with imem := Imem.writeWords s.imem i ws } := by
  induction ws generalizing s i with
  | nil => rfl
  | cons w ws ih =>
    rw [List.length_cons] at hfit
    rw [imageWrites, List.cons_append, hostActs, hostAct_writeImem_of_reset hr (by omega)]
    exact ih (s := { s with imem := Imem.write s.imem i w }) hr (by dsimp only; omega)

/-- From any state the boot actions of a WF image start a fresh run of it. -/
theorem hostActs_bootActions (s : State) {img : Image} (h : imageIsWf s.cfg.imemDepth.val img = true) :
    hostActs (bootActions img) s = .next (s.assertReset.withImage img).freshRun := by
  have hfit : 0 + img.words.length ≤ s.assertReset.cfg.imemDepth.val := by
    rw [Nat.zero_add]
    exact length_le_of_imageIsWf h
  have hlen : (BitVec.ofNat 32 img.words.length).setWidth 30 = BitVec.ofNat 30 img.words.length :=
    BitVec.setWidth_ofNat_of_le (by decide) _
  have hrelease := (hostAct_releaseReset_eq_next (s := s.assertReset.withImage img) rfl).mpr
    ⟨s.assertReset.imageWf_withImage h, rfl⟩
  rw [bootActions, List.cons_append]
  refine hostActs_cons_eq_next.mpr ⟨s.assertReset, rfl, ?_⟩
  rw [hostActs_imageWrites_append rfl hfit]
  refine hostActs_cons_eq_next.mpr ⟨s.assertReset.withImage img, ?_, ?_⟩
  · rw [hostAct_writeStatus_progLen rfl, hlen]
    rfl
  · exact hostActs_cons_eq_next.mpr ⟨_, hrelease, rfl⟩

theorem boot_of_load_error {src : List Byte} {s : State} {e : LoadError}
    (h : load s.cfg.imemDepth.val src = .error e) : boot src s = .error e := by
  simp only [boot, h]

theorem boot_of_load_ok {src : List Byte} {s : State} {img : Image} (h : load s.cfg.imemDepth.val src = .ok img) :
    boot src s = .ok (hostActs (bootActions img) s) := by
  simp only [boot, h]

/-! ### The statements -/

/-- Settles O53: the image is WF, so its words fit, none of them is 0, and the release after the writes starts a fresh
run of it. -/
theorem loadedProgramBoots : Obligations.LoadedProgramBoots := by
  intro src s
  refine ⟨fun _ => boot_of_load_error, fun img hload => ?_⟩
  have hwf : imageIsWf s.assertReset.cfg.imemDepth.val img = true := loadedImageIsWellFormed _ _ _ hload
  refine ⟨(s.assertReset.withImage img).freshRun, ?_, rfl, rfl, rfl, Memory.read_nil,
    s.assertReset.withImage_progLen_toNat hwf, s.assertReset.imageWf_withImage hwf,
    fun _ _ hw => s.assertReset.withImage_read hwf hw⟩
  rw [boot_of_load_ok hload, hostActs_bootActions s hwf]

/-- Settles O44: no step changes the program, and of the host's actions only the two writes can, in RESET. -/
theorem hostWritesIgnoredOutsideReset : Obligations.HostWritesIgnoredOutsideReset := by
  intro s hnr
  refine ⟨fun _ _ => if_neg hnr, fun _ => if_neg hnr, ?_⟩
  rintro t (hstep | ⟨a, hact⟩)
  · obtain ⟨⟨-, himem, hlen⟩, -⟩ := programIsImmutable s t hstep
    exact ⟨himem, hlen⟩
  · obtain ⟨-, rfl⟩ | ⟨-, hr, -⟩ | ⟨_, _, -, hr, -⟩ | ⟨_, -, hr, -⟩ | ⟨_, -, -, rfl⟩ | ⟨-, rfl⟩ | ⟨_, -, -, rfl⟩ |
      ⟨-, rfl⟩ := hostAct_cases hact
    · exact ⟨rfl, rfl⟩
    · exact absurd hr hnr
    · exact absurd hr hnr
    · exact absurd hr hnr
    all_goals exact ⟨rfl, rfl⟩

end Sys2Proof.Machine
end
